-- ==== Sys2Proof/Word.lean ====
section
/-! DEFINITION. The word types of the SSP link block (spec/00_scope.md R8, R9). No value of the block is signed. -/

namespace Sys2Proof

/-- A byte: an unsigned 8-bit value (R8). -/
abbrev Byte := BitVec 8

/-- A `u16`: an unsigned 16-bit value (R8). -/
abbrev U16 := BitVec 16

/-- A finite list of bytes, the first byte first (R9). -/
abbrev Bytes := List Byte

end Sys2Proof
end

