-- ==== Sys2Proof/Config.lean ====
section
/-! DEFINITION. The fixed constants of the block (spec/00_scope.md R7, spec/10_state.md R26). They are the same in every
instance and no operation changes them. The spec leaves no value of the block open, so no constant here is opaque. The OPEN
parameters of R7 (line settings, repeat count, combiner) belong to the world around the block, and no rule reads them. -/

namespace Sys2Proof.Config

/-- `SOF`, the start-of-frame marker (R7, R26). -/
def sof : Byte := 0x7F

/-- `CRC_POLY` (R7, R26). -/
def crcPoly : U16 := 0x8005

/-- `CRC_SEED` (R7, R26). -/
def crcSeed : U16 := 0xFFFF

/-- `SEQ_BIT`, the address bit that carries the sequence flag, as a mask; also the flag's value "high" (R7, R21, R26). -/
def seqBit : Byte := 0x80

/-- `MAX_PAYLOAD`: a length byte of 255 counts the command and 254 payload bytes (R7). -/
def maxPayload : Nat := 254

end Sys2Proof.Config
end

