-- ==== Sys2Proof/Syntax.lean ====
section
/-! DEFINITION. The transactions of the block, one constructor for each row of spec/opcode_table.json (spec/30_encoding.md R69).
A count is not kept beside its bytes: it is the length of the byte list (R74 "its count is implied"). -/

namespace Sys2Proof

/-- One well delimited transaction of a legal opcode, with its operands (R69). -/
inductive Instr where
  /-- SESS_OPEN: start a session (spec/44_session_transmit.md R180). -/
  | sessOpen (initSeq devId : Byte)
  /-- SEQ_NEXT: take the next address byte and toggle the flag (spec/43_sequence.md R161). -/
  | seqNext
  /-- SEQ_PEEK: read the flag (spec/43_sequence.md R162). -/
  | seqPeek
  /-- CRC_CALC: checksum of a byte list (spec/40_checksum.md R83). -/
  | crcCalc (data : Bytes)
  /-- CRC_INIT: seed the accumulator (spec/40_checksum.md R84). -/
  | crcInit
  /-- CRC_FEED: advance the accumulator by one byte (spec/40_checksum.md R85). -/
  | crcFeed (b : Byte)
  /-- CRC_READ: read the accumulator (spec/40_checksum.md R86). -/
  | crcRead
  /-- FRM_ENC: build a frame and return it (spec/41_frame_codec.md R102). -/
  | frmEnc (cmd addr : Byte) (payload : Bytes)
  /-- FRM_SEND: build a frame with the next address byte and hand it to the transport (spec/44_session_transmit.md R181). -/
  | frmSend (cmd : Byte) (payload : Bytes)
  /-- FRM_DEC: decode one caller-supplied slice (spec/41_frame_codec.md R108). -/
  | frmDec (raw : Bytes)
  /-- RX_PUSH: take one transport read (spec/42_reassembler.md R132). -/
  | rxPush (data : Bytes)
  /-- RX_FLUSH: discard and return the retained bytes (spec/42_reassembler.md R133). -/
  | rxFlush
deriving DecidableEq, Repr

/-- The twelve operations without their operands: the rows of the opcode map (R69). -/
inductive Opcode where
  | sessOpen | seqNext | seqPeek
  | crcCalc | crcInit | crcFeed | crcRead
  | frmEnc | frmSend | frmDec
  | rxPush | rxFlush
deriving DecidableEq, Repr

/-- The operand layouts of R69: what stands after the opcode byte. -/
inductive Format where
  /-- `OP`: nothing. -/
  | none
  /-- `OP u8`: one byte. -/
  | u8
  /-- `OP u8 u8`: two bytes. -/
  | u8u8
  /-- `OP seq16`: a 16-bit count and its bytes. -/
  | seq16
  /-- `OP u8 seq8`: one byte, an 8-bit count and its bytes. -/
  | u8seq8
  /-- `OP u8 u8 seq8`: two bytes, an 8-bit count and its bytes. -/
  | u8u8seq8
deriving DecidableEq, Repr

/-- The operation a transaction asks for. -/
def Instr.opcode : Instr → Opcode
  | .sessOpen _ _ => .sessOpen
  | .seqNext => .seqNext
  | .seqPeek => .seqPeek
  | .crcCalc _ => .crcCalc
  | .crcInit => .crcInit
  | .crcFeed _ => .crcFeed
  | .crcRead => .crcRead
  | .frmEnc _ _ _ => .frmEnc
  | .frmSend _ _ => .frmSend
  | .frmDec _ => .frmDec
  | .rxPush _ => .rxPush
  | .rxFlush => .rxFlush

end Sys2Proof
end

