-- ==== Sys2Proof/WellFormed.lean ====
section
/-! DEFINITION. Which terms of `Instr` are transactions of the block: those whose byte lists a count field can describe
(spec/30_encoding.md R68). Every value of every byte operand is well formed; operand LEGALITY is the operation's own check
(spec/44_session_transmit.md R185), so SESS_OPEN with any two bytes and FRM_ENC with 255 payload bytes are well formed.
What the machine does with an ill-formed term is log entry 9. -/

namespace Sys2Proof

/-- The longest list a `seq8` operand can carry (R68). -/
def maxSeq8 : Nat := 255

/-- The longest list a `seq16` operand can carry (R68). -/
def maxSeq16 : Nat := 65535

/-- Every byte list of the transaction fits its count field (R68, R69). -/
def Instr.wf : Instr → Bool
  | .sessOpen _ _ => true
  | .seqNext => true
  | .seqPeek => true
  | .crcCalc data => decide (data.length ≤ maxSeq16)
  | .crcInit => true
  | .crcFeed _ => true
  | .crcRead => true
  | .frmEnc _ _ payload => decide (payload.length ≤ maxSeq8)
  | .frmSend _ payload => decide (payload.length ≤ maxSeq8)
  | .frmDec raw => decide (raw.length ≤ maxSeq16)
  | .rxPush data => decide (data.length ≤ maxSeq16)
  | .rxFlush => true

end Sys2Proof
end

