-- ==== Sys2Proof/Decode.lean ====
section
/-! DEFINITION. The transaction decoder and encoder (spec/30_encoding.md R67 to R73): total on any bytes, rejecting by name.
A transaction is port-delimited (R67), so the decoder is given exactly its bytes. -/

namespace Sys2Proof

/-! ### Byte order (spec/20_memory.md R41, R43: low byte first) -/

/-- `v[7:0]` (spec/00_scope.md R8). -/
def lowByte (c : U16) : Byte := c.extractLsb' 0 8

/-- `v[15:8]` (spec/00_scope.md R8). -/
def highByte (c : U16) : Byte := c.extractLsb' 8 8

/-- A 16-bit value as it leaves the block: low byte, then high byte (R41, R43). -/
def le16 (c : U16) : Bytes := [lowByte c, highByte c]

/-- A count as a `u16` field, low byte first (R43). -/
def count16 (n : Nat) : Bytes := le16 (BitVec.ofNat 16 n)

/-- The value of a `u16` operand: `t[i] + 256 * t[i+1]` (R68). -/
def u16Value (lo hi : Byte) : Nat := lo.toNat + 256 * hi.toNat

/-! ### The opcode map (R69) -/

/-- The opcode byte of each operation (R69). -/
def opcodeByte : Opcode → Byte
  | .sessOpen => 0x01
  | .seqNext => 0x02
  | .seqPeek => 0x03
  | .crcCalc => 0x10
  | .crcInit => 0x11
  | .crcFeed => 0x12
  | .crcRead => 0x13
  | .frmEnc => 0x20
  | .frmSend => 0x21
  | .frmDec => 0x22
  | .rxPush => 0x30
  | .rxFlush => 0x31

/-- Every row of the opcode map (R69). -/
def opcodeMap : List Opcode :=
  [.sessOpen, .seqNext, .seqPeek, .crcCalc, .crcInit, .crcFeed, .crcRead, .frmEnc, .frmSend, .frmDec, .rxPush, .rxFlush]

/-- The operation of an opcode byte; `none` for a reserved one (R71). -/
def opcodeOf (b : Byte) : Option Opcode := opcodeMap.find? (fun o => opcodeByte o == b)

/-- The operand layout of each operation (R69). -/
def formatOf : Opcode → Format
  | .sessOpen => .u8u8
  | .seqNext => .none
  | .seqPeek => .none
  | .crcCalc => .seq16
  | .crcInit => .none
  | .crcFeed => .u8
  | .crcRead => .none
  | .frmEnc => .u8u8seq8
  | .frmSend => .u8seq8
  | .frmDec => .seq16
  | .rxPush => .seq16
  | .rxFlush => .none

/-! ### Operand layouts (R68): each takes the bytes after the opcode byte, and all of them -/

/-- `OP`: no operand byte may follow. -/
def readNone (i : Instr) : Bytes → Option Instr
  | [] => some i
  | _ :: _ => none

/-- `OP u8`. -/
def readU8 (k : Byte → Instr) : Bytes → Option Instr
  | [a] => some (k a)
  | _ => none

/-- `OP u8 u8`. -/
def readU8U8 (k : Byte → Byte → Instr) : Bytes → Option Instr
  | [a, b] => some (k a b)
  | _ => none

/-- `OP seq16`: a 16-bit count, low byte first, and exactly that many bytes. -/
def readSeq16 (k : Bytes → Instr) : Bytes → Option Instr
  | lo :: hi :: data => if data.length = u16Value lo hi then some (k data) else none
  | _ => none

/-- `OP u8 seq8`: a byte, an 8-bit count, and exactly that many bytes. -/
def readU8Seq8 (k : Byte → Bytes → Instr) : Bytes → Option Instr
  | a :: n :: data => if data.length = n.toNat then some (k a data) else none
  | _ => none

/-- `OP u8 u8 seq8`: two bytes, an 8-bit count, and exactly that many bytes. -/
def readU8U8Seq8 (k : Byte → Byte → Bytes → Instr) : Bytes → Option Instr
  | a :: b :: n :: data => if data.length = n.toNat then some (k a b data) else none
  | _ => none

/-- The operands of an operation, in the order R69 lists them; `none` where the length does not match (R72). -/
def decodeOperands : Opcode → Bytes → Option Instr
  | .sessOpen => readU8U8 .sessOpen
  | .seqNext => readNone .seqNext
  | .seqPeek => readNone .seqPeek
  | .crcCalc => readSeq16 .crcCalc
  | .crcInit => readNone .crcInit
  | .crcFeed => readU8 .crcFeed
  | .crcRead => readNone .crcRead
  | .frmEnc => readU8U8Seq8 .frmEnc
  | .frmSend => readU8Seq8 .frmSend
  | .frmDec => readSeq16 .frmDec
  | .rxPush => readSeq16 .rxPush
  | .rxFlush => readNone .rxFlush

/-! ### The decoder -/

/-- Why bytes are no transaction of the block. -/
inductive DecodeError where
  /-- The opcode byte is in no row of the opcode map (R71). -/
  | illegalOp
  /-- The transaction is empty, or its length does not fit its opcode and counts (R72). -/
  | malformed
deriving DecidableEq, Repr

/-- The transaction a byte sequence is. The opcode is checked before the length, and an empty sequence has no opcode
(spec/60_exceptions.md R205, checks 1 and 2). -/
def decode : Bytes → Except DecodeError Instr
  | [] => .error .malformed
  | op :: operands =>
    match opcodeOf op with
    | none => .error .illegalOp
    | some o =>
      match decodeOperands o operands with
      | none => .error .malformed
      | some i => .ok i

/-! ### The encoder -/

/-- A `seq8` operand: the count, then the bytes (R68). -/
def encodeSeq8 (data : Bytes) : Bytes := BitVec.ofNat 8 data.length :: data

/-- A `seq16` operand: the count, low byte first, then the bytes (R68). -/
def encodeSeq16 (data : Bytes) : Bytes := count16 data.length ++ data

/-- The operand bytes of a transaction, in the order R69 lists them. -/
def encodeOperands : Instr → Bytes
  | .sessOpen initSeq devId => [initSeq, devId]
  | .seqNext => []
  | .seqPeek => []
  | .crcCalc data => encodeSeq16 data
  | .crcInit => []
  | .crcFeed b => [b]
  | .crcRead => []
  | .frmEnc cmd addr payload => cmd :: addr :: encodeSeq8 payload
  | .frmSend cmd payload => cmd :: encodeSeq8 payload
  | .frmDec raw => encodeSeq16 raw
  | .rxPush data => encodeSeq16 data
  | .rxFlush => []

/-- The bytes of a transaction: the opcode byte, then the operands (R67, R69). -/
def encode (i : Instr) : Bytes := opcodeByte i.opcode :: encodeOperands i

/-! ### The length of a transaction in a stream without delimiters (R73) -/

/-- How many operand bytes a layout takes, from the bytes after the opcode; `none` while the count field has not come (R73). -/
def operandLength : Format → Bytes → Option Nat
  | .none, _ => some 0
  | .u8, _ => some 1
  | .u8u8, _ => some 2
  | .seq16, lo :: hi :: _ => some (2 + u16Value lo hi)
  | .seq16, _ => none
  | .u8seq8, _ :: n :: _ => some (2 + n.toNat)
  | .u8seq8, _ => none
  | .u8u8seq8, _ :: _ :: n :: _ => some (3 + n.toNat)
  | .u8u8seq8, _ => none

/-- The length of the transaction that a byte stream starts with, the opcode byte counted: from the opcode alone, or from the
opcode and the count field (R69, R73). `none` for a reserved opcode and while the count field has not come. -/
def transactionLength : Bytes → Option Nat
  | [] => none
  | op :: rest =>
    match opcodeOf op with
    | none => none
    | some o => (operandLength (formatOf o) rest).map (1 + ·)

/-! ### Words of the opcode table -/

/-- The first `n` bytes of the number `w`, its least significant byte first. -/
def wordBytes : Nat → Nat → Bytes
  | 0, _ => []
  | n + 1, w => BitVec.ofNat 8 w :: wordBytes n (w / 256)

/-- The transaction whose first `nbits` bits are `w` and whose other bits are all 0. The port delimits a transaction (R67), so the
zeros that follow the table's bits stop at the length that the opcode and the counts give (R73). DEDUCED, log entry 2. -/
def tableTransaction (nbits w : Nat) : Bytes :=
  let given := wordBytes ((nbits + 7) / 8) w
  given ++ List.replicate ((transactionLength (given ++ List.replicate 4 0)).getD 0 - given.length) 0

/-- What the decoder reads from a word of the opcode table, `none` where it rejects. -/
def decodeTableWord (nbits w : Nat) : Option Instr :=
  match decode (tableTransaction nbits w) with
  | .ok i => some i
  | .error _ => none

end Sys2Proof
end

