-- ==== Sys2Proof/Machine/State.lean ====
section
/-! DEFINITION. The state of the block: the record S of spec/10_state.md R20 and what stands at the ports of R30; how a step can
stop; the state after reset (R32). Plain data throughout. -/

namespace Sys2Proof.Machine

/-- Who issues a transaction (spec/10_state.md R31). The block does not check it (spec/60_exceptions.md R208). -/
inductive Agent where
  /-- The software that issues every transaction except RX_PUSH. -/
  | host
  /-- The serial-port collaborator, which issues RX_PUSH. -/
  | transport
deriving DecidableEq, Repr

/-- Who receives a response from the RSP port (spec/10_state.md R30). -/
inductive Recipient where
  /-- Back to the issuer. -/
  | issuer (a : Agent)
  /-- The consumer of reports, for an RX_PUSH. -/
  | reportConsumer
deriving DecidableEq, Repr

/-- What the outside world puts to the block. -/
inductive Input where
  /-- A transaction on the CMD port: who issues it and its bytes, legal or not (spec/10_state.md R30, spec/30_encoding.md R67). -/
  | transaction (issuer : Agent) (bytes : Bytes)
  /-- A reset, an event outside the transaction stream that falls between two transactions (spec/70_reset_and_hazards.md R230). -/
  | reset
deriving DecidableEq, Repr

/-- One response on the RSP port: `[status] ++ results`, and whom it goes to (spec/30_encoding.md R70, spec/10_state.md R30). -/
structure Response where
  dest  : Recipient
  bytes : Bytes
deriving DecidableEq, Repr

/-- The whole state. The first four fields are S (spec/10_state.md R20); the last three are what stands at the ports (R30). -/
structure State where
  /-- `S.seq_flag`: 0x80 or 0x00 (R21), which is an invariant and not the type's doing: DEDUCED, log entry 10. -/
  seqFlag : Byte
  /-- `S.dev_id`: bits 6:0 of every address byte (R22). -/
  devId   : BitVec 7
  /-- `S.crc_acc`: the accumulator of CRC_INIT, CRC_FEED and CRC_READ (R23). -/
  crcAcc  : U16
  /-- `S.rx_buf`: the retained bytes, the earliest first (R24). Their bound (R25) is an invariant: DEDUCED, log entry 10. -/
  rxBuf   : Bytes
  /-- CMD and the reset input: what was put to the block and not yet performed, the oldest first. The list is the single total order of
  spec/20_memory.md R48; any interleaving of the two agents may stand in it. DESIGN CHOICE, log entry 1. -/
  pending : List Input
  /-- RSP: every response given, the oldest first. DESIGN CHOICE, log entry 1. -/
  rsp     : List Response
  /-- TX: every frame handed to the transport, in the order of the FRM_SEND transactions (spec/20_memory.md R49). DESIGN CHOICE, log entry 1. -/
  tx      : List Bytes
deriving DecidableEq, Repr

/-- Why the block stops with a fault: never. "No behaviour of the block is `fault` or `stuck`: every transaction returns a response,
and the block accepts the next one" (spec/93_implementation_defined.md; spec/60_exceptions.md R202, R206), so there is no constructor.
Nothing raises one; safe, since every transaction has the outcome the spec gives it. DEDUCED, log entry 5. -/
inductive Fault where
deriving DecidableEq, Repr

/-- Why a transaction has no outcome. -/
inductive Refusal where
  /-- An arm of `exec` for an instruction without a meaning. No arm answers it: every row of the opcode table has its meaning. Safe. -/
  | notModelled (mnemonic : String)
deriving DecidableEq, Repr

/-- The state right after reset: S as spec/10_state.md R32 gives it, nothing at the ports (DESIGN CHOICE, log entry 3). -/
def State.reset : State where
  seqFlag := 0x80
  devId := 0x00
  crcAcc := 0xFFFF
  rxBuf := []
  pending := []
  rsp := []
  tx := []

end Sys2Proof.Machine
end

