-- ==== Sys2Proof/Machine/Ops.lean ====
section
/-! DEFINITION. The named operations that the meanings share: the fields of S, the ports, the statuses and the two ways a transaction
ends, the checksum, the frame codec and the boundary detector. The block has no traps (spec/60_exceptions.md R206): what another
machine does by taking an exception, this one does by `raise`. -/

namespace Sys2Proof.Machine

/-! ### Writing the fields of S (spec/00_scope.md R10) -/

/-- `S.seq_flag <- v`. -/
def State.setSeqFlag (s : State) (v : Byte) : State := { s with seqFlag := v }

/-- `S.dev_id <- v`. -/
def State.setDevId (s : State) (v : BitVec 7) : State := { s with devId := v }

/-- `S.crc_acc <- v`. -/
def State.setCrcAcc (s : State) (v : U16) : State := { s with crcAcc := v }

/-- `S.rx_buf <- v`. -/
def State.setRxBuf (s : State) (v : Bytes) : State := { s with rxBuf := v }

/-! ### The ports (spec/10_state.md R30) -/

/-- The oldest thing put to the block and not yet performed. -/
def State.nextInput (s : State) : Option Input := s.pending.head?

/-- The input just performed leaves the port. -/
def State.popInput (s : State) : State := { s with pending := s.pending.tail }

/-- An input placed before all that is pending. -/
def State.pushInput (s : State) (i : Input) : State := { s with pending := i :: s.pending }

/-- `emit TX(f)`: hand the frame to the transport (spec/00_scope.md R11). It completes at once (spec/60_exceptions.md R211).
DEDUCED, log entry 11. -/
def State.emitTx (s : State) (f : Bytes) : State := { s with tx := s.tx ++ [f] }

/-- Who receives the response to a transaction: its issuer, but for an RX_PUSH the consumer of reports (spec/10_state.md R30). The
opcode byte alone says that it is an RX_PUSH, so a malformed one is answered there too. DEDUCED, log entry 6. -/
def recipientOf (issuer : Agent) : Bytes → Recipient
  | [] => .issuer issuer
  | op :: _ => if op = opcodeByte .rxPush then .reportConsumer else .issuer issuer

/-- Who receives the response to the transaction being performed, which stands at the head of `pending` until its response is given.
With no transaction there (never inside a step) the host: DESIGN CHOICE, log entry 6. -/
def State.recipient (s : State) : Recipient :=
  match s.nextInput with
  | some (.transaction issuer t) => recipientOf issuer t
  | some .reset => .issuer .host
  | none => .issuer .host

/-- The issuer that the convention of spec/10_state.md R31 gives a transaction: the transport for RX_PUSH, else the host. -/
def conventionalIssuer : Bytes → Agent
  | [] => .host
  | op :: _ => if op = opcodeByte .rxPush then .transport else .host

/-! ### Statuses and the two ways a transaction ends (spec/60_exceptions.md R200, spec/00_scope.md R11) -/

/-- The status names of R200. -/
inductive Status where
  | ok | truncated | checksumMismatch | badMarker | lengthZero | payloadTooLong | illegalOp | illegalOperand | malformed
deriving DecidableEq, Repr

/-- The status codes of R200. -/
def Status.code : Status → Byte
  | .ok => 0x00
  | .truncated => 0x01
  | .checksumMismatch => 0x02
  | .badMarker => 0x03
  | .lengthZero => 0x04
  | .payloadTooLong => 0x05
  | .illegalOp => 0x06
  | .illegalOperand => 0x07
  | .malformed => 0x08

/-- Put `[status] ++ results` on the response port (spec/30_encoding.md R70). -/
def State.respond (s : State) (st : Status) (results : Bytes) : State :=
  { s with rsp := s.rsp ++ [⟨s.recipient, st.code :: results⟩] }

/-- `return OK(results)` (spec/00_scope.md R11), in the state the operation's writes have made. -/
def returnOk (results : Bytes) (s : State) : Host.Outcome State Fault Refusal := .next (s.respond .ok results)

/-- `raise status`: the status alone is returned, and no state is written (spec/00_scope.md R11, spec/60_exceptions.md R203). -/
def raise (st : Status) (s : State) : Host.Outcome State Fault Refusal := .next (s.respond st [])

/-- The status of bytes that are no transaction (spec/44_session_transmit.md R183, R184). -/
def decodeErrorStatus : DecodeError → Status
  | .illegalOp => .illegalOp
  | .malformed => .malformed

/-! ### Reset (spec/70_reset_and_hazards.md R230) -/

/-- A reset puts every field of S into its reset value (spec/10_state.md R32) and gives no report. What stands at the ports stays:
DESIGN CHOICE, log entry 3. -/
def State.takeReset (s : State) : State :=
  { s with
    seqFlag := State.reset.seqFlag, devId := State.reset.devId, crcAcc := State.reset.crcAcc, rxBuf := State.reset.rxBuf }

/-! ### Byte sequences (spec/00_scope.md R9) -/

/-- The inclusive slice `s[i..j]`, empty when j = i − 1. The callers keep j < len(s), where R9 defines it.
DESIGN CHOICE, log entry 8. -/
def slice (s : Bytes) (i j : Nat) : Bytes := (s.drop i).take (j + 1 - i)

/-- `s[i]`, for 0 ≤ i < len(s). The callers keep i < len(s), where R9 defines it. DESIGN CHOICE, log entry 8. -/
def byteAt (s : Bytes) (i : Nat) : Byte := s.getD i 0

/-! ### The checksum (spec/40_checksum.md R80 to R82) -/

/-- One round of the CRC: bit 15 is tested before the shift, the polynomial comes after it (R80). -/
def crcRound (r : U16) : U16 := if r.msb then (r <<< 1) ^^^ Config.crcPoly else r <<< 1

/-- `crc_step`: one byte enters the high byte of the register, and eight rounds follow (R80, spec/20_memory.md R42). -/
def crcStep (r : U16) (b : Byte) : U16 := Nat.repeat crcRound 8 (r ^^^ (b.setWidth 16 <<< 8))

/-- `crc16`: the register from the seed on, with no final XOR and no reflection (R81). -/
def crc16 (s : Bytes) : U16 := s.foldl crcStep Config.crcSeed

/-- `crc_pair`: low byte, then high byte (R82). -/
def crcPair (s : Bytes) : Bytes := le16 (crc16 s)

/-! ### The frame codec (spec/41_frame_codec.md) -/

/-- A decoded frame (R100). -/
structure Frame where
  address : Byte
  length  : Byte
  command : Byte
  payload : Bytes
deriving DecidableEq, Repr

/-- Why a slice is no frame (R103). -/
inductive FrameError where
  /-- Too short for its marker, length byte or declared length + 5. -/
  | truncated
  /-- Byte 0 is not the start marker. -/
  | badMarker
  /-- The CRC pair at 3+L, 4+L differs from that of the body. -/
  | checksumMismatch
  /-- The checksum is valid and the length byte is 0 (R111). -/
  | lengthZero
deriving DecidableEq, Repr

/-- The body of a frame, which the checksum covers: `[addr, L, cmd] ++ payload` with `L = len(payload) + 1` (R101, spec/30_encoding.md R61). -/
def frameBody (cmd : Byte) (payload : Bytes) (addr : Byte) : Bytes :=
  [addr, BitVec.ofNat 8 (payload.length + 1), cmd] ++ payload

/-- `encode`: marker, body, CRC pair (R101). R101 leaves it undefined for a payload over 254 bytes, whose length no
byte holds; `none` there is a DESIGN CHOICE, log entry 8. -/
def encodeFrame (cmd : Byte) (payload : Bytes) (addr : Byte) : Option Bytes :=
  if payload.length ≤ Config.maxPayload then
    some (Config.sof :: frameBody cmd payload addr ++ crcPair (frameBody cmd payload addr))
  else none

/-- `decode` of one candidate slice, its checks in the order of R103 and R104. The CRC bytes stand at the offsets that the length byte
gives, and bytes after them are ignored (R106). The address is not checked (R107). -/
def decodeFrame (raw : Bytes) : Except FrameError Frame :=
  if raw.length = 0 then .error .truncated
  else if byteAt raw 0 ≠ Config.sof then .error .badMarker
  else if raw.length < 3 then .error .truncated
  else
    let len := (byteAt raw 2).toNat
    if raw.length < len + 5 then .error .truncated
    else if [byteAt raw (3 + len), byteAt raw (4 + len)] ≠ crcPair (slice raw 1 (2 + len)) then .error .checksumMismatch
    else if len = 0 then .error .lengthZero
    else .ok { address := byteAt raw 1, length := byteAt raw 2, command := byteAt raw 3, payload := slice raw 4 (2 + len) }

/-- The status that names a decode error (spec/60_exceptions.md R200). -/
def frameErrorStatus : FrameError → Status
  | .truncated => .truncated
  | .badMarker => .badMarker
  | .checksumMismatch => .checksumMismatch
  | .lengthZero => .lengthZero

/-! ### The boundary detector (spec/42_reassembler.md) -/

/-- A report: how a candidate slice decoded, and its bytes exactly as received (spec/30_encoding.md R75). -/
structure Report where
  kind  : Status
  bytes : Bytes
deriving DecidableEq, Repr

/-- `classify`: the report kind of decode's result (R131). TRUNCATED never comes from an emitted slice (R138); its line here is never
reached. DESIGN CHOICE, log entry 7. -/
def classify : Except FrameError Frame → Status
  | .ok _ => .ok
  | .error e => frameErrorStatus e

/-- What a report tells its consumer (R131, R136, spec/60_exceptions.md R204). -/
inductive ReportEvent where
  /-- A valid inbound frame, handed on to higher logic. -/
  | validFrame
  /-- A checksum failure: reported, non-fatal, never handed on as a frame. -/
  | checksumFailure
  /-- The `unrecognized-data` event. -/
  | unrecognizedData
deriving DecidableEq, Repr

/-- The event of a report kind (R131, R136); `none` for the statuses that are no report kind (spec/30_encoding.md R75). -/
def Status.reportEvent : Status → Option ReportEvent
  | .ok => some .validFrame
  | .checksumMismatch => some .checksumFailure
  | .badMarker => some .unrecognizedData
  | .lengthZero => some .unrecognizedData
  | .truncated => none
  | .payloadTooLong => none
  | .illegalOp => none
  | .illegalOperand => none
  | .malformed => none

/-- The report record `[kind, s_lo, s_hi] ++ slice` (spec/30_encoding.md R75). -/
def Report.record (r : Report) : Bytes := r.kind.code :: count16 r.bytes.length ++ r.bytes

/-- Whether the bytes held make one candidate slice: at least 3 of them and exactly `buf[2] + 5` (R130). -/
def completesSlice (buf : Bytes) : Bool := decide (3 ≤ buf.length ∧ buf.length = (byteAt buf 2).toNat + 5)

/-- `rx_byte`: append the byte; where that completes a slice, report it and empty the buffer (R130). The marker is not looked for (R135). -/
def rxByte (buf : Bytes) (b : Byte) : Bytes × List Report :=
  if completesSlice (buf ++ [b]) then ([], [⟨classify (decodeFrame (buf ++ [b])), buf ++ [b]⟩]) else (buf ++ [b], [])

/-- `rx_byte` for each byte of a transport read, the reports in the order their slices end (R132, spec/20_memory.md R50). -/
def reassemble : Bytes → Bytes → Bytes × List Report
  | buf, [] => (buf, [])
  | buf, b :: data =>
    ((reassemble (rxByte buf b).1 data).1, (rxByte buf b).2 ++ (reassemble (rxByte buf b).1 data).2)

/-- The results of an RX_PUSH: the number of reports as a 16-bit count, then the report records (R132). -/
def reportResults (reports : List Report) : Bytes := count16 reports.length ++ reports.flatMap Report.record

end Sys2Proof.Machine
end

