-- ==== Sys2Proof/Machine/Flags.lean ====
section
/-! DEFINITION. The sequence flag, the block's only flag (spec/10_state.md R21, R28), and the address byte made from it
(spec/43_sequence.md). -/

namespace Sys2Proof.Machine

/-- `seq_addr(S) = S.seq_flag or S.dev_id`: the flag in bit 7, the device id in bits 6:0 (spec/43_sequence.md R160, spec/30_encoding.md R65). -/
def seqAddr (s : State) : Byte := s.seqFlag ||| s.devId.setWidth 8

/-- `S.seq_flag <- S.seq_flag xor 0x80` (spec/43_sequence.md R161). -/
def toggleFlag (s : State) : State := s.setSeqFlag (s.seqFlag ^^^ Config.seqBit)

/-- The values the flag takes: 0x80 ("high") and 0x00 ("low") (spec/10_state.md R21, R29). -/
def legalFlag (v : Byte) : Bool := v == Config.seqBit || v == 0x00

end Sys2Proof.Machine
end

