-- ==== Sys2Proof/Machine/Operands.lean ====
section
/-! DEFINITION. Operand legality (spec/44_session_transmit.md R185): of the legal, well-formed transactions only SESS_OPEN (here) and a
payload no length byte can describe (`encodeFrame`, in Ops) are refused for an operand value. How operands are laid out in a transaction
is in Decode. -/

namespace Sys2Proof.Machine

/-- A device id is legal up to 0x7F (spec/44_session_transmit.md R180, spec/10_state.md R29). -/
def legalDevId (v : Byte) : Bool := decide (v.toNat ≤ 0x7F)

/-- The two operands of SESS_OPEN are in range (spec/44_session_transmit.md R180). -/
def legalSession (initSeq devId : Byte) : Bool := legalFlag initSeq && legalDevId devId

/-- The 7-bit device id of a legal operand byte. -/
def devIdOf (v : Byte) : BitVec 7 := v.setWidth 7

end Sys2Proof.Machine
end

