-- ==== Sys2Proof/Machine/Checksum.lean ====
section
/-! DEFINITION. The ChecksumEngine's operations (spec/40_checksum.md). -/

namespace Sys2Proof.Machine

/-- CRC_CALC (R83): the checksum of the data; the accumulator is neither read nor written. -/
def execCrcCalc (data : Bytes) (s : State) : Host.Outcome State Fault Refusal := returnOk (crcPair data) s

/-- CRC_INIT (R84): the accumulator takes the seed. -/
def execCrcInit (s : State) : Host.Outcome State Fault Refusal := returnOk [] (s.setCrcAcc Config.crcSeed)

/-- CRC_FEED (R85): the accumulator advances by one byte, from whatever it holds. -/
def execCrcFeed (b : Byte) (s : State) : Host.Outcome State Fault Refusal := returnOk [] (s.setCrcAcc (crcStep s.crcAcc b))

/-- CRC_READ (R86): the accumulator, low byte first; it stays as it is. -/
def execCrcRead (s : State) : Host.Outcome State Fault Refusal := returnOk (le16 s.crcAcc) s

end Sys2Proof.Machine
end

