-- ==== Sys2Proof/Machine/FrameCodec.lean ====
section
/-! DEFINITION. The FrameCodec's operations (spec/41_frame_codec.md). Neither writes state. -/

namespace Sys2Proof.Machine

/-- FRM_ENC (R102): the frame with the address byte the caller gives. -/
def execFrmEnc (cmd addr : Byte) (payload : Bytes) (s : State) : Host.Outcome State Fault Refusal :=
  match encodeFrame cmd payload addr with
  | none => raise .payloadTooLong s
  | some frame => returnOk frame s

/-- FRM_DEC (R108): the fields of the frame, or the status of the first check that fails. The retained bytes are not touched. -/
def execFrmDec (raw : Bytes) (s : State) : Host.Outcome State Fault Refusal :=
  match decodeFrame raw with
  | .error e => raise (frameErrorStatus e) s
  | .ok f => returnOk ([f.address, f.length, f.command] ++ f.payload) s

end Sys2Proof.Machine
end

