-- ==== Sys2Proof/Machine/Reassembler.lean ====
section
/-! DEFINITION. The StreamReassembler's operations (spec/42_reassembler.md). -/

namespace Sys2Proof.Machine

/-- RX_PUSH (R132): every byte goes through `rx_byte`; always OK, a bad slice being a report. -/
def execRxPush (data : Bytes) (s : State) : Host.Outcome State Fault Refusal :=
  returnOk (reportResults (reassemble s.rxBuf data).2) (s.setRxBuf (reassemble s.rxBuf data).1)

/-- RX_FLUSH (R133): the retained bytes are returned after their 16-bit count, and the buffer is emptied. -/
def execRxFlush (s : State) : Host.Outcome State Fault Refusal :=
  returnOk (count16 s.rxBuf.length ++ s.rxBuf) (s.setRxBuf [])

end Sys2Proof.Machine
end

