-- ==== Sys2Proof/Machine/Sequence.lean ====
section
/-! DEFINITION. The SequenceCounter's operations (spec/43_sequence.md). -/

namespace Sys2Proof.Machine

/-- SEQ_NEXT (R161): the address byte of the state before, and the flag toggled. -/
def execSeqNext (s : State) : Host.Outcome State Fault Refusal := returnOk [seqAddr s] (toggleFlag s)

/-- SEQ_PEEK (R162): the flag, without the device id. -/
def execSeqPeek (s : State) : Host.Outcome State Fault Refusal := returnOk [s.seqFlag] s

end Sys2Proof.Machine
end

