-- ==== Sys2Proof/Machine/Session.lean ====
section
/-! DEFINITION. The session and transmit operations (spec/44_session_transmit.md). -/

namespace Sys2Proof.Machine

/-- SESS_OPEN (R180): load the flag and the device id and drop the retained bytes, without a report; nothing at all where an operand is
out of range. `S.crc_acc` is not touched. -/
def execSessOpen (initSeq devId : Byte) (s : State) : Host.Outcome State Fault Refusal :=
  if legalSession initSeq devId then
    returnOk [] (((s.setSeqFlag initSeq).setDevId (devIdOf devId)).setRxBuf [])
  else raise .illegalOperand s

/-- FRM_SEND (R181): the frame with the next address byte goes to the transport and the flag toggles; neither where the payload is too long
(R165). -/
def execFrmSend (cmd : Byte) (payload : Bytes) (s : State) : Host.Outcome State Fault Refusal :=
  match encodeFrame cmd payload (seqAddr s) with
  | none => raise .payloadTooLong s
  | some frame => returnOk [seqAddr s] ((toggleFlag s).emitTx frame)

end Sys2Proof.Machine
end

