-- ==== Sys2Proof/Machine/Dispatch.lean ====
section
/-! DEFINITION. What each transaction of the opcode map does: one arm per constructor of Instr, each a direct call of its meaning. -/

namespace Sys2Proof.Machine

def exec (i : Instr) (s : State) : Host.Outcome State Fault Refusal :=
  match i with
  | .sessOpen initSeq devId => Sys2Proof.Machine.execSessOpen initSeq devId s
  | .seqNext => Sys2Proof.Machine.execSeqNext s
  | .seqPeek => Sys2Proof.Machine.execSeqPeek s
  | .crcCalc data => Sys2Proof.Machine.execCrcCalc data s
  | .crcInit => Sys2Proof.Machine.execCrcInit s
  | .crcFeed b => Sys2Proof.Machine.execCrcFeed b s
  | .crcRead => Sys2Proof.Machine.execCrcRead s
  | .frmEnc cmd addr payload => Sys2Proof.Machine.execFrmEnc cmd addr payload s
  | .frmSend cmd payload => Sys2Proof.Machine.execFrmSend cmd payload s
  | .frmDec raw => Sys2Proof.Machine.execFrmDec raw s
  | .rxPush data => Sys2Proof.Machine.execRxPush data s
  | .rxFlush => Sys2Proof.Machine.execRxFlush s

end Sys2Proof.Machine
end

