-- ==== Sys2Proof/Machine/Transaction.lean ====
section
/-! DEFINITION. What the block does with one input: a transaction, performed whole (spec/20_memory.md R47), a reset, or no input. -/

namespace Sys2Proof.Machine

/-- The input just performed leaves the port, once its outcome is there. -/
def retire : Host.Outcome State Fault Refusal → Host.Outcome State Fault Refusal
  | .next s => .next s.popInput
  | .fault r => .fault r
  | .refused r => .refused r

/-- The outcome of a transaction's bytes: that of the operation they decode to, or the status of their rejection
(spec/60_exceptions.md R205, spec/44_session_transmit.md R183, R184). -/
def perform (t : Bytes) (s : State) : Host.Outcome State Fault Refusal :=
  match decode t with
  | .ok i => exec i s
  | .error e => raise (decodeErrorStatus e) s

/-- A transaction at the head of the port is performed and leaves it. -/
def takeTransaction (t : Bytes) (s : State) : Host.Outcome State Fault Refusal := retire (perform t s)

/-- A reset event at the head of the port is taken and leaves it (spec/70_reset_and_hazards.md R230). -/
def takeResetEvent (s : State) : Host.Outcome State Fault Refusal := retire (.next s.takeReset)

/-- With nothing put to it, the block stays as it is: it waits. DESIGN CHOICE, log entry 4. -/
def idle (s : State) : Host.Outcome State Fault Refusal := .next s

/-- The input that stands for a word of the opcode table: its transaction, from the agent that the convention of spec/10_state.md R31
gives it. Log entry 2. -/
def fetchWordInput (nbits w : Nat) : Input :=
  .transaction (conventionalIssuer (tableTransaction nbits w)) (tableTransaction nbits w)

end Sys2Proof.Machine
end

