-- ==== Sys2Proof/Machine/Step.lean ====
section
/-! DEFINITION. One step of the block: it takes the oldest input put to it (spec/20_memory.md R47, R48). -/

namespace Sys2Proof.Machine

/-- The block performs the next transaction, takes the next reset, or waits. -/
def step (s : State) : Host.Outcome State Fault Refusal :=
  match s.nextInput with
  | some (.transaction _ t) => takeTransaction t s
  | some .reset => takeResetEvent s
  | none => idle s

/-- The state with the transaction of a table word on CMD, before all else that is pending. Log entry 2. -/
def State.withFetchWord (s : State) (nbits w : Nat) : State := s.pushInput (fetchWordInput nbits w)

end Sys2Proof.Machine
end

