-- ==== Sys2Proof/Safety.lean ====
section
/-! DEFINITION. The terms in which claims about the block are stated: the invariant of its state, the source's batch form of the
reassembler, runs of transactions, and what a run shows outside. -/

namespace Sys2Proof.Machine

/-! ### The invariant -/

/-- The retained bytes are no whole candidate slice (spec/10_state.md R25, spec/42_reassembler.md R139). -/
abbrev rxAtRest (buf : Bytes) : Prop := buf.length < 3 ∨ buf.length < (byteAt buf 2).toNat + 5

/-- What every operation keeps: the flag is 0x80 or 0x00 (spec/10_state.md R21) and the retained bytes are at rest (R25). -/
abbrev State.Inv (s : State) : Prop := (s.seqFlag = 0x80 ∨ s.seqFlag = 0x00) ∧ rxAtRest s.rxBuf

/-! ### The wire format and the operand layouts, written out from the spec's tables -/

/-- A 16-bit CRC value as it leaves the block: `c[7:0]`, then `c[15:8]` (spec/20_memory.md R41). -/
def wirePair (c : U16) : Bytes := [c.setWidth 8, (c >>> 8).setWidth 8]

/-- A 16-bit count in a response, low byte first (spec/20_memory.md R43). -/
def wireCount (n : Nat) : Bytes := [BitVec.ofNat 8 n, BitVec.ofNat 8 (n / 256)]

/-- The frame `7F addr L cmd payload crcLo crcHi` with `L = len(payload) + 1` (spec/30_encoding.md R60 to R62), for a payload of at most
254 bytes. -/
def wireFrame (cmd : Byte) (payload : Bytes) (addr : Byte) : Bytes :=
  [0x7F, addr, BitVec.ofNat 8 (payload.length + 1), cmd] ++ payload ++
    wirePair (crc16 ([addr, BitVec.ofNat 8 (payload.length + 1), cmd] ++ payload))

/-- These operand bytes are a `seq16` that holds `data` (spec/30_encoding.md R68). -/
def Seq16Operand (operands data : Bytes) : Prop :=
  ∃ lo hi : Byte, operands = lo :: hi :: data ∧ data.length = lo.toNat + 256 * hi.toNat

/-- These operand bytes are a `seq8` that holds `data` (spec/30_encoding.md R68). -/
def Seq8Operand (operands data : Bytes) : Prop :=
  ∃ n : Byte, operands = n :: data ∧ data.length = n.toNat

/-! ### Lengths of transactions -/

/-- The length column of the opcode map (spec/30_encoding.md R69), for the counts the transaction carries; `none` for a reserved opcode
and where the count field is missing. -/
def mapLength : Bytes → Option Nat
  | [] => none
  | op :: rest =>
    if op.toNat ∈ [0x02, 0x03, 0x11, 0x13, 0x31] then some 1
    else if op.toNat = 0x12 then some 2
    else if op.toNat = 0x01 then some 3
    else if op.toNat ∈ [0x10, 0x22, 0x30] then
      if 2 ≤ rest.length then some (3 + ((byteAt rest 0).toNat + 256 * (byteAt rest 1).toNat)) else none
    else if op.toNat = 0x21 then if 2 ≤ rest.length then some (3 + (byteAt rest 1).toNat) else none
    else if op.toNat = 0x20 then if 3 ≤ rest.length then some (4 + (byteAt rest 2).toNat) else none
    else none

/-- The opcode bytes of the opcode map (spec/30_encoding.md R69). -/
def mapOpcodes : List Nat := [0x01, 0x02, 0x03, 0x10, 0x11, 0x12, 0x13, 0x20, 0x21, 0x22, 0x30, 0x31]

/-- Put to the block as its next transaction, these bytes get the single status byte `status`, whoever receives it, and nothing else of the
block changes. -/
def Refuses (t : Bytes) (status : Byte) : Prop :=
  ∀ (s : State) (a : Agent) (rest : List Input), s.pending = .transaction a t :: rest →
    ∃ dest : Recipient, step s = .next { s with pending := rest, rsp := s.rsp ++ [⟨dest, [status]⟩] }

/-! ### The source's batch form of the reassembler (spec/42_reassembler.md R134) -/

/-- The loop of R134's `batch`, for at most `n` slices: the slices cut off, and the remainder. -/
def batchLoop : Nat → Bytes → List Bytes × Bytes
  | 0, buf => ([], buf)
  | n + 1, buf =>
    if 3 ≤ buf.length ∧ (byteAt buf 2).toNat + 5 ≤ buf.length then
      (buf.take ((byteAt buf 2).toNat + 5) :: (batchLoop n (buf.drop ((byteAt buf 2).toNat + 5))).1,
        (batchLoop n (buf.drop ((byteAt buf 2).toNat + 5))).2)
    else ([], buf)

/-- `batch(buf)` of R134: every slice has at least 5 bytes, so a loop of `len(buf)` turns ends by its own test. -/
def batch (buf : Bytes) : List Bytes × Bytes := batchLoop buf.length buf

/-! ### Runs of transactions -/

/-- The transactions one after another. -/
def execAll : List Instr → State → Host.Outcome State Fault Refusal
  | [], s => .next s
  | i :: is, s =>
    match exec i s with
    | .next t => execAll is t
    | .fault r => .fault r
    | .refused r => .refused r

/-- The transaction takes an address byte from the SequenceCounter: SEQ_NEXT, and an FRM_SEND that is not refused (spec/43_sequence.md R163). -/
def takesAddress : Instr → Bool
  | .sessOpen _ _ => false
  | .seqNext => true
  | .seqPeek => false
  | .crcCalc _ => false
  | .crcInit => false
  | .crcFeed _ => false
  | .crcRead => false
  | .frmEnc _ _ _ => false
  | .frmSend _ payload => decide (payload.length ≤ 254)
  | .frmDec _ => false
  | .rxPush _ => false
  | .rxFlush => false

/-- The address byte in the newest response `[00, addr]`, as a list of at most one byte. -/
def newestAddress (s : State) : Bytes :=
  match s.rsp.getLast? with
  | some r => (r.bytes.drop 1).take 1
  | none => []

/-- The address bytes that a run of transactions takes, in order. -/
def addressTrace : List Instr → State → Bytes
  | [], _ => []
  | i :: is, s =>
    match exec i s with
    | .next t => (if takesAddress i then newestAddress t else []) ++ addressTrace is t
    | .fault _ => []
    | .refused _ => []

/-- The report records of RX_PUSH responses, one after another: what follows status and count (spec/30_encoding.md R69, R75). -/
def reportStream (rs : List Response) : Bytes := rs.flatMap fun r => r.bytes.drop 3

/-! ### Bit errors -/

/-- The bytes with bit `k` of byte `i` flipped (spec/41_frame_codec.md R110). -/
def flipBit (f : Bytes) (i k : Nat) : Bytes := f.modify i fun b => b ^^^ ((1 : Byte) <<< k)

end Sys2Proof.Machine
end

