-- ==== Sys2Proof/Certificates/Slice0/Obligations.lean ====
section
/-! DEFINITION. The statements for the provers. Each docstring names the rule of spec/ that it formalises. -/

open Sys2Proof Sys2Proof.Machine

/-! ### Reset, and what a step does with each input -/

/-- R32: the reset values; and reset leaves S as SESS_OPEN 0x80, 0x00 does, with the CRC accumulator also at the seed. -/
def Obligations.ResetLeavesTheStatedValues : Prop :=
  (State.reset.seqFlag = 0x80 ∧ State.reset.devId = 0x00 ∧ State.reset.crcAcc = 0xFFFF ∧ State.reset.rxBuf = []) ∧
  ∀ s : State, ∃ t : State, exec (.sessOpen 0x80 0x00) s = .next t ∧
    t.seqFlag = State.reset.seqFlag ∧ t.devId = State.reset.devId ∧ t.rxBuf = State.reset.rxBuf

/-- R230: a reset between two transactions puts every field of S into its reset value, without a report or a response. -/
def Obligations.ResetEventRestoresTheResetValues : Prop :=
  ∀ (s : State) (rest : List Input), s.pending = .reset :: rest →
    ∃ t : State, step s = .next t ∧ t.seqFlag = 0x80 ∧ t.devId = 0x00 ∧ t.crcAcc = 0xFFFF ∧ t.rxBuf = [] ∧
      t.rsp = s.rsp

/-- With no input a step changes nothing. The model's choice (log entry 4): the spec does not say what the block does while it waits. -/
def Obligations.StepWithoutInputWaits : Prop :=
  ∀ s : State, s.pending = [] → step s = .next s

/-- A transaction whose bytes decode to `i` is performed as `i`, and leaves the CMD port. -/
def Obligations.StepRunsTheDecodedTransaction : Prop :=
  ∀ (s : State) (a : Agent) (t : Bytes) (rest : List Input) (i : Instr),
    s.pending = .transaction a t :: rest → decode t = .ok i → i.wf = true →
    ∃ u : State, exec i s = .next u ∧ u.pending = s.pending ∧ step s = .next { u with pending := rest }

/-- No state stops the block: every step has a next state (93_implementation_defined.md: "every transaction returns a response"). With
nothing put to the block the next state is the model's choice (log entry 4). -/
def Obligations.EveryStepHasANextState : Prop :=
  ∀ s : State, ∃ t : State, step s = .next t

/-- R183 with the reserved opcodes of R71: status 06 and nothing else, whatever follows the opcode. -/
def Obligations.ReservedOpcodesAreIllegalOp : Prop :=
  ∀ (op : Byte) (operands : Bytes),
    (op.toNat = 0x00 ∨ (0x04 ≤ op.toNat ∧ op.toNat ≤ 0x0F) ∨ (0x14 ≤ op.toNat ∧ op.toNat ≤ 0x1F) ∨
      (0x23 ≤ op.toNat ∧ op.toNat ≤ 0x2F) ∨ (0x32 ≤ op.toNat ∧ op.toNat ≤ 0xFF)) →
    Refuses (op :: operands) 0x06

/-- R184 with the cases of R72: an empty transaction, or a legal opcode whose length is not that of R69, gets status 08 and nothing else. -/
def Obligations.WrongLengthIsMalformed : Prop :=
  ∀ t : Bytes, (t = [] ∨ ∃ op operands, t = op :: operands ∧ op.toNat ∈ mapOpcodes ∧ mapLength t ≠ some t.length) →
    Refuses t 0x08

/-- R70, R200, R30: every transaction gets exactly one response, whose status is at most 08, with no results unless it is OK; it goes to the
consumer of reports for opcode 0x30 and to the issuer for any other. That a malformed RX_PUSH is answered to the consumer of reports too is
the model's reading (log entry 6). -/
def Obligations.EveryTransactionGetsOneResponse : Prop :=
  ∀ (s : State) (a : Agent) (t : Bytes) (rest : List Input), s.pending = .transaction a t :: rest →
    ∃ (u : State) (dest : Recipient) (status : Byte) (results : Bytes), step s = .next u ∧
      u.pending = rest ∧ u.rsp = s.rsp ++ [⟨dest, status :: results⟩] ∧
      status.toNat ≤ 0x08 ∧ (status ≠ 0x00 → results = []) ∧
      dest = (if t.head? = some 0x30 then .reportConsumer else .issuer a)

/-- R203: a transaction that returns a status other than OK writes no state and emits nothing; RX_PUSH always returns OK. -/
def Obligations.FailingTransactionsWriteNothing : Prop :=
  (∀ (s u : State) (a : Agent) (t : Bytes) (rest : List Input) (r : Response),
    s.pending = .transaction a t :: rest → step s = .next u → u.rsp = s.rsp ++ [r] → r.bytes.head? ≠ some 0x00 →
    u = { s with pending := rest, rsp := s.rsp ++ [r] }) ∧
  ∀ (s : State) (data : Bytes), ∃ (t : State) (results : Bytes), exec (.rxPush data) s = .next t ∧
    t.rsp = s.rsp ++ [⟨s.recipient, 0x00 :: results⟩]

/-! ### Transactions: encoding and decoding -/

/-- Words written out from R69 and R74 decode to the transactions they stand for. -/
def Obligations.WrittenOutWordsDecode : Prop :=
  decode [0x01, 0x00, 0x05] = .ok (.sessOpen 0x00 0x05) ∧ decode [0x02] = .ok .seqNext ∧
  decode [0x10, 0x03, 0x00, 0x80, 0x01, 0x11] = .ok (.crcCalc [0x80, 0x01, 0x11]) ∧
  decode [0x20, 0x11, 0x80, 0x00] = .ok (.frmEnc 0x11 0x80 []) ∧ decode [0x21, 0x11, 0x00] = .ok (.frmSend 0x11 []) ∧
  decode [0x30, 0x02, 0x00, 0x7F, 0x80] = .ok (.rxPush [0x7F, 0x80])

/-- Decoding the encoding of any well-formed transaction gives it back: no operand bit is dropped. -/
def Obligations.DecodeOfEncodeIsTheTransaction : Prop :=
  ∀ i : Instr, i.wf = true → decode (encode i) = .ok i

/-- Encoding what bytes decode to gives the bytes back, and it is well formed: every transaction has one spelling. -/
def Obligations.EncodeOfDecodeIsTheBytes : Prop :=
  ∀ (t : Bytes) (i : Instr), decode t = .ok i → encode i = t ∧ i.wf = true

/-- R68, R72: bytes are a transaction exactly when their length is the one that R69 gives for their opcode and counts. -/
def Obligations.WellFormedExactlyAtTheMapLength : Prop :=
  ∀ t : Bytes, (∃ i, decode t = .ok i) ↔ mapLength t = some t.length

/-- R73: in a stream without delimiters the length of a transaction is found from its opcode and count. -/
def Obligations.StreamLengthIsTheTransactionLength : Prop :=
  ∀ (t rest : Bytes) (i : Instr), decode t = .ok i → transactionLength (t ++ rest) = some t.length

/-! ### Session and sequence -/

/-- R180: SESS_OPEN, its encoding, both outcomes, and everything it leaves as it was. -/
def Obligations.SessOpenStartsASession : Prop :=
  (∀ initSeq devId : Byte, decode [0x01, initSeq, devId] = .ok (.sessOpen initSeq devId)) ∧
  (∀ operands : Bytes, operands.length ≠ 2 → Refuses (0x01 :: operands) 0x08) ∧
  (∀ (initSeq devId : Byte) (s : State), (initSeq = 0x80 ∨ initSeq = 0x00) → devId.toNat ≤ 0x7F →
    exec (.sessOpen initSeq devId) s =
      .next { s with
        seqFlag := initSeq, devId := BitVec.ofNat 7 devId.toNat, rxBuf := [], rsp := s.rsp ++ [⟨s.recipient, [0x00]⟩] }) ∧
  (∀ (initSeq devId : Byte) (s : State), ((initSeq ≠ 0x80 ∧ initSeq ≠ 0x00) ∨ 0x7F < devId.toNat) →
    exec (.sessOpen initSeq devId) s = .next { s with rsp := s.rsp ++ [⟨s.recipient, [0x07]⟩] })

/-- R160: while the flag is 0x80 or 0x00 the address byte is the same by or, xor and addition; and its bit 7 is the flag's, its bits 6:0
the device id (R65). -/
def Obligations.AddressByteIsFlagAndDeviceId : Prop :=
  ∀ s : State, (s.seqFlag = 0x80 ∨ s.seqFlag = 0x00) →
    seqAddr s = s.seqFlag ||| s.devId.setWidth 8 ∧ seqAddr s = s.seqFlag ^^^ s.devId.setWidth 8 ∧
    seqAddr s = s.seqFlag + s.devId.setWidth 8 ∧ (seqAddr s).msb = s.seqFlag.msb ∧ (seqAddr s).setWidth 7 = s.devId

/-- R161: SEQ_NEXT returns the address byte and toggles the flag, and does nothing else. -/
def Obligations.SeqNextTakesAnAddressAndToggles : Prop :=
  decode [0x02] = .ok .seqNext ∧
  (∀ operands : Bytes, operands ≠ [] → Refuses (0x02 :: operands) 0x08) ∧
  ∀ s : State, exec .seqNext s =
    .next { s with
      seqFlag := s.seqFlag ^^^ 0x80, rsp := s.rsp ++ [⟨s.recipient, [0x00, s.seqFlag ||| s.devId.setWidth 8]⟩] }

/-- R162: SEQ_PEEK returns the flag and changes nothing. -/
def Obligations.SeqPeekReadsTheFlag : Prop :=
  decode [0x03] = .ok .seqPeek ∧
  (∀ operands : Bytes, operands ≠ [] → Refuses (0x03 :: operands) 0x08) ∧
  ∀ s : State, exec .seqPeek s = .next { s with rsp := s.rsp ++ [⟨s.recipient, [0x00, s.seqFlag]⟩] }

/-- R163: over any run without SESS_OPEN, bit 7 of the address bytes that successful SEQ_NEXT and FRM_SEND transactions take alternates from
the current flag on, each such transaction taking one; with the flag and device id of reset the bytes are 0x80, 0x00, 0x80, .... -/
def Obligations.AddressBytesAlternate : Prop :=
  ∀ (is : List Instr) (s : State), (∀ initSeq devId : Byte, Instr.sessOpen initSeq devId ∉ is) →
    (addressTrace is s).length = is.countP takesAddress ∧
    (∀ (n : Nat) (a : Byte), (addressTrace is s)[n]? = some a → a.msb = (if n % 2 = 0 then s.seqFlag.msb else !s.seqFlag.msb)) ∧
    (s.seqFlag = 0x80 → s.devId = 0x00 →
      ∀ (n : Nat) (a : Byte), (addressTrace is s)[n]? = some a → a = (if n % 2 = 0 then 0x80 else 0x00))

/-! ### Checksum -/

/-- R80: one byte of the CRC. -/
def Obligations.CrcStepIsEightRounds : Prop :=
  ∀ (r : U16) (b : Byte), crcStep r b =
    (fun x : U16 => if x.getLsbD 15 = true then (x <<< 1) ^^^ 0x8005 else x <<< 1)^[8] (r ^^^ (b.setWidth 16 <<< 8))

/-- R81: the checksum of a byte list starts at 0xFFFF and takes one step per byte; that of the empty list is the seed. -/
def Obligations.ChecksumFoldsTheStepFromTheSeed : Prop :=
  crc16 [] = 0xFFFF ∧ ∀ (s : Bytes) (b : Byte), crc16 (s ++ [b]) = crcStep (crc16 s) b

/-- R83: CRC_CALC returns the CRC pair of its data, low byte first, and changes nothing. -/
def Obligations.CrcCalcReturnsTheChecksum : Prop :=
  (∀ operands data : Bytes, Seq16Operand operands data → decode (0x10 :: operands) = .ok (.crcCalc data)) ∧
  (∀ operands : Bytes, (∀ data, ¬ Seq16Operand operands data) → Refuses (0x10 :: operands) 0x08) ∧
  ∀ (data : Bytes) (s : State),
    exec (.crcCalc data) s = .next { s with rsp := s.rsp ++ [⟨s.recipient, 0x00 :: wirePair (crc16 data)⟩] }

/-- R84: CRC_INIT loads the seed into the accumulator, and does nothing else. -/
def Obligations.CrcInitLoadsTheSeed : Prop :=
  decode [0x11] = .ok .crcInit ∧
  (∀ operands : Bytes, operands ≠ [] → Refuses (0x11 :: operands) 0x08) ∧
  ∀ s : State, exec .crcInit s = .next { s with crcAcc := 0xFFFF, rsp := s.rsp ++ [⟨s.recipient, [0x00]⟩] }

/-- R85: CRC_FEED advances the accumulator by one byte, from whatever it holds; its two corner cases. -/
def Obligations.CrcFeedAdvancesTheAccumulator : Prop :=
  (∀ b : Byte, decode [0x12, b] = .ok (.crcFeed b)) ∧
  (∀ operands : Bytes, operands.length ≠ 1 → Refuses (0x12 :: operands) 0x08) ∧
  (∀ (b : Byte) (s : State),
    exec (.crcFeed b) s = .next { s with crcAcc := crcStep s.crcAcc b, rsp := s.rsp ++ [⟨s.recipient, [0x00]⟩] }) ∧
  crcStep 0x0000 0x00 = 0x0000 ∧ crcStep 0x0000 0x01 = 0x8005

/-- R86: CRC_READ returns the accumulator as a pair, low byte first, and changes nothing. -/
def Obligations.CrcReadReturnsTheAccumulator : Prop :=
  decode [0x13] = .ok .crcRead ∧
  (∀ operands : Bytes, operands ≠ [] → Refuses (0x13 :: operands) 0x08) ∧
  ∀ s : State, exec .crcRead s = .next { s with rsp := s.rsp ++ [⟨s.recipient, 0x00 :: wirePair s.crcAcc⟩] }

/-- R87: streaming equals block, for any run between CRC_INIT and CRC_READ whose only CRC_INIT and CRC_FEED transactions are the feeds of the
bytes in their order, whatever else falls between them; and the checksum of a concatenation is a fold from the first part's. -/
def Obligations.StreamingChecksumEqualsBlock : Prop :=
  (∀ (s : State) (data : Bytes) (is : List Instr),
    is.filter (fun i => i.opcode = .crcInit ∨ i.opcode = .crcFeed) = data.map Instr.crcFeed →
    ∃ t u : State, execAll (.crcInit :: (is ++ [.crcRead])) s = .next t ∧ exec (.crcCalc data) s = .next u ∧
      t.rsp.getLast?.map Response.bytes = u.rsp.getLast?.map Response.bytes ∧
      t.rsp.getLast?.map Response.bytes = some (0x00 :: wirePair (crc16 data))) ∧
  ∀ s u : Bytes, crc16 (s ++ u) = u.foldl crcStep (crc16 s)

/-- R89: the CRC bytes of any list, fed high byte first, bring the register to zero; in wire order those of the sync body do not. -/
def Obligations.HighByteFirstResidueIsZero : Prop :=
  (∀ (s : Bytes) (lo hi : Byte), wirePair (crc16 s) = [lo, hi] → crc16 (s ++ [hi, lo]) = 0x0000) ∧
  crc16 [0x80, 0x01, 0x11, 0x65, 0x82] = 0xD05D

/-! ### Frame codec -/

/-- R101, R63: encode gives the frame of the wire format for a payload of at most 254 bytes; the frame is L + 5 bytes long, from 6 to 260.
That `encodeFrame` answers `none` beyond 254 bytes is the model's choice (DESIGN CHOICE, log entry 8): R101 leaves encode undefined there. -/
def Obligations.EncodeBuildsTheWireFrame : Prop :=
  ∀ (cmd addr : Byte) (payload : Bytes),
    (payload.length ≤ 254 → encodeFrame cmd payload addr = some (wireFrame cmd payload addr) ∧
      (wireFrame cmd payload addr).length = payload.length + 6 ∧
      (wireFrame cmd payload addr).length = (byteAt (wireFrame cmd payload addr) 2).toNat + 5 ∧
      6 ≤ (wireFrame cmd payload addr).length ∧ (wireFrame cmd payload addr).length ≤ 260) ∧
    (254 < payload.length → encodeFrame cmd payload addr = none)

/-- R102: FRM_ENC returns the frame and changes nothing; 255 payload bytes are refused with status 05. -/
def Obligations.FrmEncReturnsTheFrame : Prop :=
  (∀ (cmd addr : Byte) (operands payload : Bytes), Seq8Operand operands payload →
    decode (0x20 :: cmd :: addr :: operands) = .ok (.frmEnc cmd addr payload)) ∧
  (∀ operands : Bytes,
    (∀ (cmd addr : Byte) (tail payload : Bytes), operands = cmd :: addr :: tail → ¬ Seq8Operand tail payload) →
    Refuses (0x20 :: operands) 0x08) ∧
  (∀ (cmd addr : Byte) (payload : Bytes) (s : State), payload.length ≤ 254 →
    exec (.frmEnc cmd addr payload) s =
      .next { s with rsp := s.rsp ++ [⟨s.recipient, 0x00 :: wireFrame cmd payload addr⟩] }) ∧
  (∀ (cmd addr : Byte) (payload : Bytes) (s : State), payload.length = 255 →
    exec (.frmEnc cmd addr payload) s = .next { s with rsp := s.rsp ++ [⟨s.recipient, [0x05]⟩] })

/-- R103 to R105, R111: decode's checks and their order, each outcome by the shape of the slice. -/
def Obligations.DecodeChecksInOrder : Prop :=
  decodeFrame [] = .error .truncated ∧
  (∀ (m : Byte) (rest : Bytes), m ≠ 0x7F → decodeFrame (m :: rest) = .error .badMarker) ∧
  decodeFrame [0x7F] = .error .truncated ∧
  (∀ a : Byte, decodeFrame [0x7F, a] = .error .truncated) ∧
  (∀ (a l : Byte) (rest : Bytes), rest.length < l.toNat + 2 → decodeFrame (0x7F :: a :: l :: rest) = .error .truncated) ∧
  (∀ (a l lo hi : Byte) (span extra : Bytes), span.length = l.toNat → [lo, hi] ≠ wirePair (crc16 (a :: l :: span)) →
    decodeFrame (0x7F :: a :: l :: (span ++ lo :: hi :: extra)) = .error .checksumMismatch) ∧
  (∀ (a : Byte) (extra : Bytes),
    decodeFrame ([0x7F, a, 0x00] ++ wirePair (crc16 [a, 0x00]) ++ extra) = .error .lengthZero) ∧
  (∀ (a l cmd : Byte) (payload extra : Bytes), payload.length + 1 = l.toNat →
    decodeFrame ([0x7F, a, l, cmd] ++ payload ++ wirePair (crc16 ([a, l, cmd] ++ payload)) ++ extra) = .ok ⟨a, l, cmd, payload⟩)

/-- R106: bytes after index 4 + L are ignored, whatever the result. -/
def Obligations.DecodeIgnoresBytesAfterTheFrame : Prop :=
  ∀ raw extra : Bytes, 3 ≤ raw.length → (byteAt raw 2).toNat + 5 ≤ raw.length → decodeFrame (raw ++ extra) = decodeFrame raw

/-- R108: FRM_DEC returns the fields, or the status of the failing check, and changes nothing. -/
def Obligations.FrmDecReturnsFieldsOrStatus : Prop :=
  (∀ operands raw : Bytes, Seq16Operand operands raw → decode (0x22 :: operands) = .ok (.frmDec raw)) ∧
  (∀ operands : Bytes, (∀ raw, ¬ Seq16Operand operands raw) → Refuses (0x22 :: operands) 0x08) ∧
  ∀ (raw : Bytes) (s : State), exec (.frmDec raw) s =
    .next { s with rsp := s.rsp ++ [⟨s.recipient,
      match decodeFrame raw with
      | .ok f => 0x00 :: f.address :: f.length :: f.command :: f.payload
      | .error .truncated => [0x01]
      | .error .checksumMismatch => [0x02]
      | .error .badMarker => [0x03]
      | .error .lengthZero => [0x04]⟩] }

/-- R109: decoding an encoded frame gives its fields back. -/
def Obligations.DecodeOfEncodedFrameIsTheFrame : Prop :=
  ∀ (cmd addr : Byte) (payload : Bytes), payload.length ≤ 254 →
    ∃ f : Bytes, encodeFrame cmd payload addr = some f ∧
      decodeFrame f = .ok ⟨addr, BitVec.ofNat 8 (payload.length + 1), cmd, payload⟩

/-- R110: the result of a single-bit error. In every frame, in the marker: BAD_MARKER; in the address, the command, the payload or the CRC
bytes: CHECKSUM_MISMATCH; in the length, where it grows: TRUNCATED. Where the length shrinks R110 guarantees nothing of every frame: the
flips of the two frames of V-FLIP alone are stated, and give CHECKSUM_MISMATCH. -/
def Obligations.SingleBitErrorsGiveTheStatedResults : Prop :=
  (∀ (cmd addr : Byte) (payload f : Bytes) (i k : Nat), encodeFrame cmd payload addr = some f → i < f.length → k < 8 →
    (i = 0 → decodeFrame (flipBit f i k) = .error .badMarker) ∧
    (i ≠ 0 → i ≠ 2 → decodeFrame (flipBit f i k) = .error .checksumMismatch) ∧
    (i = 2 → byteAt f 2 < byteAt (flipBit f i k) 2 → decodeFrame (flipBit f i k) = .error .truncated)) ∧
  decodeFrame (flipBit [0x7F, 0x80, 0x01, 0x11, 0x65, 0x82] 2 0) = .error .checksumMismatch ∧
  decodeFrame (flipBit [0x7F, 0x80, 0x09, 0x4A, 0x01, 0x02, 0x03, 0x04, 0x05, 0x06, 0x07, 0x08, 0xEE, 0x4A] 2 0) =
    .error .checksumMismatch ∧
  decodeFrame (flipBit [0x7F, 0x80, 0x09, 0x4A, 0x01, 0x02, 0x03, 0x04, 0x05, 0x06, 0x07, 0x08, 0xEE, 0x4A] 2 3) =
    .error .checksumMismatch

/-! ### Transmit -/

/-- R181: FRM_SEND hands the frame with the next address byte to TX and toggles the flag; 255 payload bytes are refused with status 05, and
then nothing is sent or toggled. -/
def Obligations.FrmSendTransmitsAndToggles : Prop :=
  (∀ (cmd : Byte) (operands payload : Bytes), Seq8Operand operands payload →
    decode (0x21 :: cmd :: operands) = .ok (.frmSend cmd payload)) ∧
  (∀ operands : Bytes, (∀ (cmd : Byte) (tail payload : Bytes), operands = cmd :: tail → ¬ Seq8Operand tail payload) →
    Refuses (0x21 :: operands) 0x08) ∧
  (∀ (cmd : Byte) (payload : Bytes) (s : State), payload.length ≤ 254 →
    exec (.frmSend cmd payload) s =
      .next { s with
        seqFlag := s.seqFlag ^^^ 0x80, tx := s.tx ++ [wireFrame cmd payload (s.seqFlag ||| s.devId.setWidth 8)],
        rsp := s.rsp ++ [⟨s.recipient, [0x00, s.seqFlag ||| s.devId.setWidth 8]⟩] }) ∧
  (∀ (cmd : Byte) (payload : Bytes) (s : State), payload.length = 255 →
    exec (.frmSend cmd payload) s = .next { s with rsp := s.rsp ++ [⟨s.recipient, [0x05]⟩] })

/-- R182: the frame FRM_SEND emits is the one FRM_ENC returns for the address byte of SEQ_NEXT, and the flag ends the same. -/
def Obligations.FrmSendIsSeqNextThenFrmEnc : Prop :=
  ∀ (cmd : Byte) (payload : Bytes) (s : State), payload.length ≤ 254 →
    ∃ (t u v : State) (a : Byte) (frame : Bytes),
      exec .seqNext s = .next t ∧ t.rsp = s.rsp ++ [⟨s.recipient, [0x00, a]⟩] ∧
      exec (.frmEnc cmd a payload) t = .next u ∧ u.rsp = t.rsp ++ [⟨s.recipient, 0x00 :: frame⟩] ∧
      exec (.frmSend cmd payload) s = .next v ∧ v.tx = s.tx ++ [frame] ∧
      u.seqFlag = s.seqFlag ^^^ 0x80 ∧ v.seqFlag = s.seqFlag ^^^ 0x80

/-- R49, R165: a step adds at most one frame at the end of TX; a frame it adds decodes, its address is the counter's, and the flag has toggled. -/
def Obligations.TransmittedFramesDecode : Prop :=
  ∀ s t : State, step s = .next t →
    t.tx = s.tx ∨ ∃ (cmd : Byte) (payload frame : Bytes), t.tx = s.tx ++ [frame] ∧ payload.length ≤ 254 ∧
      frame = wireFrame cmd payload (s.seqFlag ||| s.devId.setWidth 8) ∧
      decodeFrame frame = .ok ⟨s.seqFlag ||| s.devId.setWidth 8, BitVec.ofNat 8 (payload.length + 1), cmd, payload⟩ ∧
      t.seqFlag = s.seqFlag ^^^ 0x80

/-! ### Reassembler -/

/-- R130: the step for one inbound byte. -/
def Obligations.RxByteEmitsAtTheSpan : Prop :=
  ∀ (buf : Bytes) (b : Byte),
    (3 ≤ (buf ++ [b]).length → (buf ++ [b]).length = (byteAt (buf ++ [b]) 2).toNat + 5 →
      rxByte buf b = ([], [⟨classify (decodeFrame (buf ++ [b])), buf ++ [b]⟩])) ∧
    (¬ (3 ≤ (buf ++ [b]).length ∧ (buf ++ [b]).length = (byteAt (buf ++ [b]) 2).toNat + 5) → rxByte buf b = (buf ++ [b], []))

/-- R131, R136: the report kind and the event of each decode result. -/
def Obligations.ReportKindsFollowDecode : Prop :=
  (∀ f : Frame, (classify (.ok f)).code = 0x00 ∧ (classify (.ok f)).reportEvent = some .validFrame) ∧
  ((classify (.error .checksumMismatch)).code = 0x02 ∧ (classify (.error .checksumMismatch)).reportEvent = some .checksumFailure) ∧
  ((classify (.error .badMarker)).code = 0x03 ∧ (classify (.error .badMarker)).reportEvent = some .unrecognizedData) ∧
  ((classify (.error .lengthZero)).code = 0x04 ∧ (classify (.error .lengthZero)).reportEvent = some .unrecognizedData) ∧
  ∀ k : Status, k.reportEvent = some .unrecognizedData ↔ (k = .badMarker ∨ k = .lengthZero)

/-- R132, R75: RX_PUSH takes every byte through rx_byte, returns the count and the report records, and writes the retained bytes alone. -/
def Obligations.RxPushReportsEverySlice : Prop :=
  (∀ operands data : Bytes, Seq16Operand operands data → decode (0x30 :: operands) = .ok (.rxPush data)) ∧
  (∀ operands : Bytes, (∀ data, ¬ Seq16Operand operands data) → Refuses (0x30 :: operands) 0x08) ∧
  ∀ (data : Bytes) (s : State) (buf : Bytes) (reports : List Report),
    data.foldl (fun p b => ((rxByte p.1 b).1, p.2 ++ (rxByte p.1 b).2)) (s.rxBuf, []) = (buf, reports) →
    exec (.rxPush data) s = .next { s with
      rxBuf := buf,
      rsp := s.rsp ++ [⟨s.recipient, 0x00 :: (wireCount reports.length ++
        reports.flatMap fun r => r.kind.code :: (wireCount r.bytes.length ++ r.bytes))⟩] }

/-- R133: RX_FLUSH returns the retained bytes after their count, and empties the buffer. -/
def Obligations.RxFlushReturnsTheRetainedBytes : Prop :=
  decode [0x31] = .ok .rxFlush ∧
  (∀ operands : Bytes, operands ≠ [] → Refuses (0x31 :: operands) 0x08) ∧
  ∀ s : State, exec .rxFlush s = .next { s with
    rxBuf := [], rsp := s.rsp ++ [⟨s.recipient, 0x00 :: (wireCount s.rxBuf.length ++ s.rxBuf)⟩] }

/-- R134: from an empty buffer, a stream pushed in any chunks gives the slices and the remainder of the source's batch algorithm on the whole
stream, each slice reported with its kind. -/
def Obligations.PushesGiveTheBatchSlices : Prop :=
  ∀ (chunks : List Bytes) (s : State), s.rxBuf = [] →
    ∃ t : State, execAll (chunks.map Instr.rxPush) s = .next t ∧ t.rxBuf = (batch chunks.flatten).2 ∧
      reportStream (t.rsp.drop s.rsp.length) =
        (batch chunks.flatten).1.flatMap fun sl => (classify (decodeFrame sl)).code :: (wireCount sl.length ++ sl)

/-- R134 from any state: pushing a stream in chunks and pushing it whole give the same reports and the same retained bytes. -/
def Obligations.ChunkingDoesNotMatter : Prop :=
  ∀ (chunks : List Bytes) (s : State),
    ∃ t u : State, execAll (chunks.map Instr.rxPush) s = .next t ∧ exec (.rxPush chunks.flatten) s = .next u ∧
      t.rxBuf = u.rxBuf ∧ reportStream (t.rsp.drop s.rsp.length) = reportStream (u.rsp.drop s.rsp.length)

/-- R138: every slice the reassembler emits has the length its own byte 2 declares, is classified by decode, and is never TRUNCATED. -/
def Obligations.EmittedSlicesAreNeverShort : Prop :=
  ∀ (buf data : Bytes) (r : Report), r ∈ (reassemble buf data).2 →
    3 ≤ r.bytes.length ∧ r.bytes.length = (byteAt r.bytes 2).toNat + 5 ∧ r.kind = classify (decodeFrame r.bytes) ∧
    decodeFrame r.bytes ≠ .error .truncated ∧ r.kind.code ∈ ([0x00, 0x02, 0x03, 0x04] : Bytes)

/-- R24, R50: no inbound byte is lost, made up or moved: what was held and what comes in is the emitted slices, in order, and what is held
then. -/
def Obligations.ReassemblyKeepsEveryByte : Prop :=
  ∀ buf data : Bytes, buf ++ data = (reassemble buf data).2.flatMap Report.bytes ++ (reassemble buf data).1

/-- R132: the number of reports of one RX_PUSH is at most 13107, so its 16-bit count holds it. -/
def Obligations.ReportCountFitsItsField : Prop :=
  ∀ buf data : Bytes, data.length ≤ 65535 → (reassemble buf data).2.length ≤ 13107

/-! ### Over all transactions -/

/-- R25, with R21's legal flag values: every step keeps the invariant, and the retained bytes are then at most 259. (The step that has
nothing to perform is log entry 4; it changes nothing.) -/
def Obligations.StepKeepsTheInvariant : Prop :=
  ∀ s t : State, s.Inv → step s = .next t → t.Inv ∧ t.rxBuf.length ≤ 259

/-- The state after reset meets the invariant: the flag is legal and the retained bytes are at rest. -/
def Obligations.ResetMeetsTheInvariant : Prop :=
  State.reset.Inv

/-- R51, the W column: what each operation leaves as it was. -/
def Obligations.OperationsWriteOnlyTheirState : Prop :=
  ∀ (i : Instr) (s : State), ∃ t : State, exec i s = .next t ∧
    (i.opcode ∉ [Opcode.sessOpen, .seqNext, .frmSend] → t.seqFlag = s.seqFlag) ∧
    (i.opcode ≠ .sessOpen → t.devId = s.devId) ∧
    (i.opcode ∉ [Opcode.crcInit, .crcFeed] → t.crcAcc = s.crcAcc) ∧
    (i.opcode ∉ [Opcode.sessOpen, .rxPush, .rxFlush] → t.rxBuf = s.rxBuf) ∧
    (i.opcode ≠ .frmSend → t.tx = s.tx) ∧
    t.pending = s.pending ∧ ∃ r : Response, t.rsp = s.rsp ++ [r] ∧ r.dest = s.recipient

/-- R51, the R column: two states that agree on what an operation reads give the same response, the same frame and the same values of what
it writes. -/
def Obligations.OperationsReadOnlyTheirState : Prop :=
  ∀ (i : Instr) (s s' t t' : State),
    (i.opcode ∈ [Opcode.seqNext, .seqPeek, .frmSend] → s.seqFlag = s'.seqFlag) →
    (i.opcode ∈ [Opcode.seqNext, .frmSend] → s.devId = s'.devId) →
    (i.opcode ∈ [Opcode.crcFeed, .crcRead] → s.crcAcc = s'.crcAcc) →
    (i.opcode ∈ [Opcode.rxPush, .rxFlush] → s.rxBuf = s'.rxBuf) →
    exec i s = .next t → exec i s' = .next t' →
    t.rsp.getLast?.map Response.bytes = t'.rsp.getLast?.map Response.bytes ∧
    t.tx.drop s.tx.length = t'.tx.drop s'.tx.length ∧
    (t.seqFlag = t'.seqFlag ∨ (t.seqFlag = s.seqFlag ∧ t'.seqFlag = s'.seqFlag)) ∧
    (t.devId = t'.devId ∨ (t.devId = s.devId ∧ t'.devId = s'.devId)) ∧
    (t.crcAcc = t'.crcAcc ∨ (t.crcAcc = s.crcAcc ∧ t'.crcAcc = s'.crcAcc)) ∧
    (t.rxBuf = t'.rxBuf ∨ (t.rxBuf = s.rxBuf ∧ t'.rxBuf = s'.rxBuf))

/-- R51: a read-only operation gives the same response however often it is repeated. -/
def Obligations.ReadOnlyOperationsRepeat : Prop :=
  ∀ (i : Instr) (s : State), i.opcode ∈ [Opcode.seqPeek, .crcCalc, .crcRead, .frmEnc, .frmDec] →
    ∃ r : Response, exec i s = .next { s with rsp := s.rsp ++ [r] } ∧
      exec i { s with rsp := s.rsp ++ [r] } = .next { s with rsp := s.rsp ++ [r] ++ [r] }

/-- R52: where an RX_PUSH falls among host transactions other than SESS_OPEN and RX_FLUSH does not matter: both orders give the same two
responses, the same frames and the same S. -/
def Obligations.RxPushCommutesWithHostTransactions : Prop :=
  ∀ (i : Instr) (data : Bytes) (s : State), i.opcode ∉ [Opcode.sessOpen, .rxPush, .rxFlush] →
    ∃ (t u t' u' : State) (r q : Response),
      exec i s = .next t ∧ exec (.rxPush data) t = .next u ∧ exec (.rxPush data) s = .next t' ∧ exec i t' = .next u' ∧
      t.rsp = s.rsp ++ [r] ∧ u.rsp = t.rsp ++ [q] ∧ t'.rsp = s.rsp ++ [q] ∧ u'.rsp = t'.rsp ++ [r] ∧
      u.seqFlag = u'.seqFlag ∧ u.devId = u'.devId ∧ u.crcAcc = u'.crcAcc ∧ u.rxBuf = u'.rxBuf ∧ u.tx = u'.tx
end

