-- ==== Sys2Proof/Laws/State.lean ====
section
/-! SUPPORT. One lemma per field per update, so that no proof unfolds a record update. -/

namespace Sys2Proof.Machine

/-! ### setSeqFlag -/

@[simp] theorem State.setSeqFlag_seqFlag (s : State) (v : Byte) : (s.setSeqFlag v).seqFlag = v := rfl
@[simp] theorem State.setSeqFlag_devId (s : State) (v : Byte) : (s.setSeqFlag v).devId = s.devId := rfl
@[simp] theorem State.setSeqFlag_crcAcc (s : State) (v : Byte) : (s.setSeqFlag v).crcAcc = s.crcAcc := rfl
@[simp] theorem State.setSeqFlag_rxBuf (s : State) (v : Byte) : (s.setSeqFlag v).rxBuf = s.rxBuf := rfl
@[simp] theorem State.setSeqFlag_pending (s : State) (v : Byte) : (s.setSeqFlag v).pending = s.pending := rfl
@[simp] theorem State.setSeqFlag_rsp (s : State) (v : Byte) : (s.setSeqFlag v).rsp = s.rsp := rfl
@[simp] theorem State.setSeqFlag_tx (s : State) (v : Byte) : (s.setSeqFlag v).tx = s.tx := rfl

/-! ### setDevId -/

@[simp] theorem State.setDevId_seqFlag (s : State) (v : BitVec 7) : (s.setDevId v).seqFlag = s.seqFlag := rfl
@[simp] theorem State.setDevId_devId (s : State) (v : BitVec 7) : (s.setDevId v).devId = v := rfl
@[simp] theorem State.setDevId_crcAcc (s : State) (v : BitVec 7) : (s.setDevId v).crcAcc = s.crcAcc := rfl
@[simp] theorem State.setDevId_rxBuf (s : State) (v : BitVec 7) : (s.setDevId v).rxBuf = s.rxBuf := rfl
@[simp] theorem State.setDevId_pending (s : State) (v : BitVec 7) : (s.setDevId v).pending = s.pending := rfl
@[simp] theorem State.setDevId_rsp (s : State) (v : BitVec 7) : (s.setDevId v).rsp = s.rsp := rfl
@[simp] theorem State.setDevId_tx (s : State) (v : BitVec 7) : (s.setDevId v).tx = s.tx := rfl

/-! ### setCrcAcc -/

@[simp] theorem State.setCrcAcc_seqFlag (s : State) (v : U16) : (s.setCrcAcc v).seqFlag = s.seqFlag := rfl
@[simp] theorem State.setCrcAcc_devId (s : State) (v : U16) : (s.setCrcAcc v).devId = s.devId := rfl
@[simp] theorem State.setCrcAcc_crcAcc (s : State) (v : U16) : (s.setCrcAcc v).crcAcc = v := rfl
@[simp] theorem State.setCrcAcc_rxBuf (s : State) (v : U16) : (s.setCrcAcc v).rxBuf = s.rxBuf := rfl
@[simp] theorem State.setCrcAcc_pending (s : State) (v : U16) : (s.setCrcAcc v).pending = s.pending := rfl
@[simp] theorem State.setCrcAcc_rsp (s : State) (v : U16) : (s.setCrcAcc v).rsp = s.rsp := rfl
@[simp] theorem State.setCrcAcc_tx (s : State) (v : U16) : (s.setCrcAcc v).tx = s.tx := rfl

/-! ### setRxBuf -/

@[simp] theorem State.setRxBuf_seqFlag (s : State) (v : Bytes) : (s.setRxBuf v).seqFlag = s.seqFlag := rfl
@[simp] theorem State.setRxBuf_devId (s : State) (v : Bytes) : (s.setRxBuf v).devId = s.devId := rfl
@[simp] theorem State.setRxBuf_crcAcc (s : State) (v : Bytes) : (s.setRxBuf v).crcAcc = s.crcAcc := rfl
@[simp] theorem State.setRxBuf_rxBuf (s : State) (v : Bytes) : (s.setRxBuf v).rxBuf = v := rfl
@[simp] theorem State.setRxBuf_pending (s : State) (v : Bytes) : (s.setRxBuf v).pending = s.pending := rfl
@[simp] theorem State.setRxBuf_rsp (s : State) (v : Bytes) : (s.setRxBuf v).rsp = s.rsp := rfl
@[simp] theorem State.setRxBuf_tx (s : State) (v : Bytes) : (s.setRxBuf v).tx = s.tx := rfl

/-! ### popInput -/

@[simp] theorem State.popInput_seqFlag (s : State) : s.popInput.seqFlag = s.seqFlag := rfl
@[simp] theorem State.popInput_devId (s : State) : s.popInput.devId = s.devId := rfl
@[simp] theorem State.popInput_crcAcc (s : State) : s.popInput.crcAcc = s.crcAcc := rfl
@[simp] theorem State.popInput_rxBuf (s : State) : s.popInput.rxBuf = s.rxBuf := rfl
@[simp] theorem State.popInput_pending (s : State) : s.popInput.pending = s.pending.tail := rfl
@[simp] theorem State.popInput_rsp (s : State) : s.popInput.rsp = s.rsp := rfl
@[simp] theorem State.popInput_tx (s : State) : s.popInput.tx = s.tx := rfl

/-! ### pushInput -/

@[simp] theorem State.pushInput_seqFlag (s : State) (i : Input) : (s.pushInput i).seqFlag = s.seqFlag := rfl
@[simp] theorem State.pushInput_devId (s : State) (i : Input) : (s.pushInput i).devId = s.devId := rfl
@[simp] theorem State.pushInput_crcAcc (s : State) (i : Input) : (s.pushInput i).crcAcc = s.crcAcc := rfl
@[simp] theorem State.pushInput_rxBuf (s : State) (i : Input) : (s.pushInput i).rxBuf = s.rxBuf := rfl
@[simp] theorem State.pushInput_pending (s : State) (i : Input) : (s.pushInput i).pending = i :: s.pending := rfl
@[simp] theorem State.pushInput_rsp (s : State) (i : Input) : (s.pushInput i).rsp = s.rsp := rfl
@[simp] theorem State.pushInput_tx (s : State) (i : Input) : (s.pushInput i).tx = s.tx := rfl

/-! ### emitTx -/

@[simp] theorem State.emitTx_seqFlag (s : State) (f : Bytes) : (s.emitTx f).seqFlag = s.seqFlag := rfl
@[simp] theorem State.emitTx_devId (s : State) (f : Bytes) : (s.emitTx f).devId = s.devId := rfl
@[simp] theorem State.emitTx_crcAcc (s : State) (f : Bytes) : (s.emitTx f).crcAcc = s.crcAcc := rfl
@[simp] theorem State.emitTx_rxBuf (s : State) (f : Bytes) : (s.emitTx f).rxBuf = s.rxBuf := rfl
@[simp] theorem State.emitTx_pending (s : State) (f : Bytes) : (s.emitTx f).pending = s.pending := rfl
@[simp] theorem State.emitTx_rsp (s : State) (f : Bytes) : (s.emitTx f).rsp = s.rsp := rfl
@[simp] theorem State.emitTx_tx (s : State) (f : Bytes) : (s.emitTx f).tx = s.tx ++ [f] := rfl

/-! ### respond -/

@[simp] theorem State.respond_seqFlag (s : State) (st : Status) (results : Bytes) : (s.respond st results).seqFlag = s.seqFlag := rfl
@[simp] theorem State.respond_devId (s : State) (st : Status) (results : Bytes) : (s.respond st results).devId = s.devId := rfl
@[simp] theorem State.respond_crcAcc (s : State) (st : Status) (results : Bytes) : (s.respond st results).crcAcc = s.crcAcc := rfl
@[simp] theorem State.respond_rxBuf (s : State) (st : Status) (results : Bytes) : (s.respond st results).rxBuf = s.rxBuf := rfl
@[simp] theorem State.respond_pending (s : State) (st : Status) (results : Bytes) : (s.respond st results).pending = s.pending := rfl
@[simp] theorem State.respond_rsp (s : State) (st : Status) (results : Bytes) : (s.respond st results).rsp = s.rsp ++ [⟨s.recipient, st.code :: results⟩] := rfl
@[simp] theorem State.respond_tx (s : State) (st : Status) (results : Bytes) : (s.respond st results).tx = s.tx := rfl

/-! ### takeReset -/

@[simp] theorem State.takeReset_seqFlag (s : State) : s.takeReset.seqFlag = 0x80 := rfl
@[simp] theorem State.takeReset_devId (s : State) : s.takeReset.devId = 0x00 := rfl
@[simp] theorem State.takeReset_crcAcc (s : State) : s.takeReset.crcAcc = 0xFFFF := rfl
@[simp] theorem State.takeReset_rxBuf (s : State) : s.takeReset.rxBuf = [] := rfl
@[simp] theorem State.takeReset_pending (s : State) : s.takeReset.pending = s.pending := rfl
@[simp] theorem State.takeReset_rsp (s : State) : s.takeReset.rsp = s.rsp := rfl
@[simp] theorem State.takeReset_tx (s : State) : s.takeReset.tx = s.tx := rfl

/-! ### toggleFlag -/

@[simp] theorem toggleFlag_seqFlag (s : State) : (toggleFlag s).seqFlag = s.seqFlag ^^^ 0x80 := rfl
@[simp] theorem toggleFlag_devId (s : State) : (toggleFlag s).devId = s.devId := rfl
@[simp] theorem toggleFlag_crcAcc (s : State) : (toggleFlag s).crcAcc = s.crcAcc := rfl
@[simp] theorem toggleFlag_rxBuf (s : State) : (toggleFlag s).rxBuf = s.rxBuf := rfl
@[simp] theorem toggleFlag_pending (s : State) : (toggleFlag s).pending = s.pending := rfl
@[simp] theorem toggleFlag_rsp (s : State) : (toggleFlag s).rsp = s.rsp := rfl
@[simp] theorem toggleFlag_tx (s : State) : (toggleFlag s).tx = s.tx := rfl

/-! ### The recipient of the response depends on the input port alone -/

@[simp] theorem State.setSeqFlag_recipient (s : State) (v : Byte) : (s.setSeqFlag v).recipient = s.recipient := rfl
@[simp] theorem State.setDevId_recipient (s : State) (v : BitVec 7) : (s.setDevId v).recipient = s.recipient := rfl
@[simp] theorem State.setCrcAcc_recipient (s : State) (v : U16) : (s.setCrcAcc v).recipient = s.recipient := rfl
@[simp] theorem State.setRxBuf_recipient (s : State) (v : Bytes) : (s.setRxBuf v).recipient = s.recipient := rfl
@[simp] theorem State.emitTx_recipient (s : State) (f : Bytes) : (s.emitTx f).recipient = s.recipient := rfl
@[simp] theorem State.respond_recipient (s : State) (st : Status) (results : Bytes) : (s.respond st results).recipient = s.recipient := rfl
@[simp] theorem State.takeReset_recipient (s : State) : s.takeReset.recipient = s.recipient := rfl
@[simp] theorem toggleFlag_recipient (s : State) : (toggleFlag s).recipient = s.recipient := rfl

end Sys2Proof.Machine
end

