-- ==== Sys2Proof/Laws/Crc.lean ====
section
/-! SUPPORT. The checksum: it is a fold, its step is linear over xor and injective, so one changed byte changes it. -/

namespace Sys2Proof.Machine

@[simp] theorem crc16_nil : crc16 [] = 0xFFFF := rfl

theorem crc16_append (s u : Bytes) : crc16 (s ++ u) = u.foldl crcStep (crc16 s) := by
  simp [crc16, List.foldl_append]

/-- One round is linear over xor. -/
theorem crcRound_xor (a b : U16) : crcRound (a ^^^ b) = crcRound a ^^^ crcRound b := by
  have h : (a ^^^ b) <<< 1 = a <<< 1 ^^^ b <<< 1 := by ext i hi; simp; cases decide (i = 0) <;> simp
  unfold crcRound
  rw [BitVec.msb_xor, h]
  cases a.msb <;> cases b.msb <;> simp only [Bool.xor_false, Bool.xor_true, Bool.not_true, Bool.not_false, if_true,
    Bool.false_eq_true, if_false]
  · ac_rfl
  · ac_rfl
  · rw [show a <<< 1 ^^^ Config.crcPoly ^^^ (b <<< 1 ^^^ Config.crcPoly) =
      a <<< 1 ^^^ b <<< 1 ^^^ (Config.crcPoly ^^^ Config.crcPoly) by ac_rfl]
    simp

/-- A round sends only zero to zero: the polynomial has a constant term. -/
theorem crcRound_eq_zero {r : U16} (h : crcRound r = 0) : r = 0 := by
  unfold crcRound at h
  split at h
  · have := congrArg (fun x : U16 => x.getLsbD 0) h
    simp [Config.crcPoly] at this
  · rename_i hm
    apply BitVec.eq_of_toNat_eq
    have h1 := congrArg BitVec.toNat h
    have h2 : r.toNat < 2 ^ 15 := by
      have := BitVec.msb_eq_decide r
      simp [this] at hm
      omega
    simp [BitVec.toNat_shiftLeft, Nat.shiftLeft_eq] at h1
    simp
    omega

theorem crcRound_injective : Function.Injective crcRound := by
  intro a b h
  have h0 : crcRound (a ^^^ b) = 0 := by rw [crcRound_xor, h, BitVec.xor_self]; rfl
  have := crcRound_eq_zero h0
  exact BitVec.xor_eq_zero_iff.mp this

theorem crcRounds_eq_iterate (n : Nat) (r : U16) : Nat.repeat crcRound n r = crcRound^[n] r := by
  induction n generalizing r with
  | zero => rfl
  | succ n ih => rw [Function.iterate_succ_apply', ← ih]; rfl

theorem crcStep_eq_iterate (r : U16) (b : Byte) : crcStep r b = crcRound^[8] (r ^^^ (b.setWidth 16 <<< 8)) :=
  crcRounds_eq_iterate 8 _

theorem crcStep_injective_left (b : Byte) : Function.Injective (fun r => crcStep r b) := by
  intro a c h
  simp only [crcStep_eq_iterate] at h
  have := (crcRound_injective.iterate 8) h
  exact (BitVec.xor_left_inj _).mp this

theorem crcStep_injective_right (r : U16) : Function.Injective (crcStep r) := by
  intro a c h
  simp only [crcStep_eq_iterate] at h
  have h := (BitVec.xor_right_inj _).mp ((crcRound_injective.iterate 8) h)
  apply BitVec.eq_of_toNat_eq
  have h := congrArg BitVec.toNat h
  have := a.isLt; have := c.isLt
  simp [BitVec.toNat_shiftLeft, Nat.shiftLeft_eq] at h
  omega

theorem crcFold_injective (s : Bytes) : Function.Injective (fun r => s.foldl crcStep r) := by
  induction s with
  | nil => intro a b h; exact h
  | cons b s ih => intro a c h; exact crcStep_injective_left b (ih h)

/-- Two lists that differ in one byte have different checksums. -/
theorem crc16_ne_of_one_byte (s u : Bytes) {b c : Byte} (h : b ≠ c) : crc16 (s ++ b :: u) ≠ crc16 (s ++ c :: u) := by
  intro he
  simp only [crc16_append, List.foldl_cons] at he
  exact h (crcStep_injective_right _ (crcFold_injective u he))

/-- The two bytes of a CRC value determine it. -/
theorem le16_injective : Function.Injective le16 := by
  intro a b h
  simp only [le16, lowByte, highByte, List.cons.injEq, and_true] at h
  obtain ⟨h0, h1⟩ := h
  ext i hi
  by_cases hi8 : i < 8
  · have := congrArg (fun x => BitVec.getLsbD x i) h0
    simpa [hi8, hi] using this
  · have := congrArg (fun x => BitVec.getLsbD x (i - 8)) h1
    have e : 8 + (i - 8) = i := by omega
    have e2 : i - 8 < 8 := by omega
    simpa [e, e2, hi] using this

end Sys2Proof.Machine
end

