-- ==== Sys2Proof/Laws/Decode.lean ====
section
/-! SUPPORT. What the transaction decoder and encoder do: the opcode map, the counts, one lemma per operand layout. -/

namespace Sys2Proof

/-! ### The opcode map -/

@[simp] theorem opcodeOf_opcodeByte (o : Opcode) : opcodeOf (opcodeByte o) = some o := by
  cases o <;> rfl

theorem opcodeByte_of_opcodeOf {b : Byte} {o : Opcode} (h : opcodeOf b = some o) : b = opcodeByte o := by
  have := List.find?_some h
  simpa using (beq_iff_eq.mp this).symm

theorem opcodeOf_eq_none {b : Byte} (h : ∀ o, b ≠ opcodeByte o) : opcodeOf b = none := by
  rw [opcodeOf, List.find?_eq_none]
  intro o _ hb
  exact h o (beq_iff_eq.mp hb).symm

/-! ### Counts -/

theorem le16_eq_wirePair (c : U16) : le16 c = Machine.wirePair c := by
  simp only [le16, Machine.wirePair, lowByte, highByte, List.cons.injEq, and_true]
  constructor
  · ext i hi; simp
  · ext i hi; simp

theorem count16_eq_wireCount (n : Nat) : count16 n = Machine.wireCount n := by
  rw [count16, le16_eq_wirePair]
  simp only [Machine.wirePair, Machine.wireCount, List.cons.injEq, and_true]
  constructor
  · apply BitVec.eq_of_toNat_eq; simp
  · apply BitVec.eq_of_toNat_eq; simp [Nat.shiftRight_eq_div_pow]; omega

theorem u16Value_lt (lo hi : Byte) : u16Value lo hi < 65536 := by
  have := lo.isLt; have := hi.isLt; unfold u16Value; omega

@[simp] theorem count16_u16Value (lo hi : Byte) : count16 (u16Value lo hi) = [lo, hi] := by
  have := lo.isLt; have := hi.isLt
  rw [count16_eq_wireCount, Machine.wireCount, u16Value]
  simp only [List.cons.injEq, and_true]
  constructor <;> apply BitVec.eq_of_toNat_eq <;> simp only [BitVec.toNat_ofNat] <;> omega

/-- A count that 16 bits hold is read back from its two bytes. -/
theorem exists_count16 {n : Nat} (h : n ≤ maxSeq16) : ∃ lo hi, count16 n = [lo, hi] ∧ u16Value lo hi = n := by
  refine ⟨_, _, count16_eq_wireCount n, ?_⟩
  simp only [u16Value, BitVec.toNat_ofNat, maxSeq16] at *
  omega

/-! ### Operand layouts: when each reader answers, and what -/

theorem readNone_eq_some {i j : Instr} {t : Bytes} : readNone i t = some j ↔ t = [] ∧ i = j := by
  cases t <;> simp [readNone]

theorem readU8_eq_some {k : Byte → Instr} {t : Bytes} {j : Instr} : readU8 k t = some j ↔ ∃ a, t = [a] ∧ k a = j := by
  match t with
  | [] => simp [readU8]
  | [a] => simp [readU8]
  | _ :: _ :: _ => simp [readU8]

theorem readU8U8_eq_some {k : Byte → Byte → Instr} {t : Bytes} {j : Instr} :
    readU8U8 k t = some j ↔ ∃ a b, t = [a, b] ∧ k a b = j := by
  match t with
  | [] => simp [readU8U8]
  | [_] => simp [readU8U8]
  | [a, b] => simp [readU8U8]
  | _ :: _ :: _ :: _ => simp [readU8U8]

theorem readSeq16_eq_some {k : Bytes → Instr} {t : Bytes} {j : Instr} :
    readSeq16 k t = some j ↔ ∃ lo hi data, t = lo :: hi :: data ∧ data.length = u16Value lo hi ∧ k data = j := by
  match t with
  | [] => simp [readSeq16]
  | [_] => simp [readSeq16]
  | lo :: hi :: data =>
    simp only [readSeq16, Option.ite_none_right_eq_some, Option.some.injEq]
    constructor
    · rintro ⟨h, rfl⟩; exact ⟨lo, hi, data, rfl, h, rfl⟩
    · rintro ⟨_, _, _, h, h', rfl⟩; simp only [List.cons.injEq] at h; obtain ⟨rfl, rfl, rfl⟩ := h; exact ⟨h', rfl⟩

theorem readU8Seq8_eq_some {k : Byte → Bytes → Instr} {t : Bytes} {j : Instr} :
    readU8Seq8 k t = some j ↔ ∃ a n data, t = a :: n :: data ∧ data.length = n.toNat ∧ k a data = j := by
  match t with
  | [] => simp [readU8Seq8]
  | [_] => simp [readU8Seq8]
  | a :: n :: data =>
    simp only [readU8Seq8, Option.ite_none_right_eq_some, Option.some.injEq]
    constructor
    · rintro ⟨h, rfl⟩; exact ⟨a, n, data, rfl, h, rfl⟩
    · rintro ⟨_, _, _, h, h', rfl⟩; simp only [List.cons.injEq] at h; obtain ⟨rfl, rfl, rfl⟩ := h; exact ⟨h', rfl⟩

theorem readU8U8Seq8_eq_some {k : Byte → Byte → Bytes → Instr} {t : Bytes} {j : Instr} :
    readU8U8Seq8 k t = some j ↔ ∃ a b n data, t = a :: b :: n :: data ∧ data.length = n.toNat ∧ k a b data = j := by
  match t with
  | [] => simp [readU8U8Seq8]
  | [_] => simp [readU8U8Seq8]
  | [_, _] => simp [readU8U8Seq8]
  | a :: b :: n :: data =>
    simp only [readU8U8Seq8, Option.ite_none_right_eq_some, Option.some.injEq]
    constructor
    · rintro ⟨h, rfl⟩; exact ⟨a, b, n, data, rfl, h, rfl⟩
    · rintro ⟨_, _, _, _, h, h', rfl⟩; simp only [List.cons.injEq] at h; obtain ⟨rfl, rfl, rfl, rfl⟩ := h; exact ⟨h', rfl⟩

/-! ### The decoder -/

theorem decode_cons {op : Byte} {o : Opcode} (h : opcodeOf op = some o) (operands : Bytes) :
    decode (op :: operands) =
      match decodeOperands o operands with
      | none => .error .malformed
      | some i => .ok i := by
  cases hd : decodeOperands o operands <;> simp [decode, h, hd]

/-- What decoding says, once: an answered transaction is an opcode of the map followed by operands its reader takes. -/
theorem decode_eq_ok {t : Bytes} {i : Instr} :
    decode t = .ok i ↔ ∃ o operands, t = opcodeByte o :: operands ∧ decodeOperands o operands = some i := by
  constructor
  · intro h
    match t with
    | [] => simp [decode] at h
    | op :: operands =>
      cases ho : opcodeOf op with
      | none => simp [decode, ho] at h
      | some o =>
        rw [decode_cons ho] at h
        refine ⟨o, operands, by rw [opcodeByte_of_opcodeOf ho], ?_⟩
        cases hd : decodeOperands o operands with
        | none => simp [hd] at h
        | some j => simpa [hd] using h
  · rintro ⟨o, operands, rfl, h⟩
    rw [decode_cons (opcodeOf_opcodeByte o), h]

end Sys2Proof
end

