-- ==== Sys2Proof/Laws/Ops.lean ====
section
/-! SUPPORT. The shared operations: one lemma that says what each can do, which proofs cite instead of unfolding it. -/

namespace Sys2Proof.Machine

/-! ### How a transaction ends -/

/-- `returnOk` gives a next state with one more response, status 00; all else is as the operation's writes left it. -/
theorem returnOk_eq (results : Bytes) (s : State) :
    returnOk results s = .next { s with rsp := s.rsp ++ [⟨s.recipient, 0x00 :: results⟩] } := rfl

/-- `raise` gives a next state with one more response, the status alone; all else is as it was. -/
theorem raise_eq (st : Status) (s : State) :
    raise st s = .next { s with rsp := s.rsp ++ [⟨s.recipient, [st.code]⟩] } := rfl

theorem Status.code_le (st : Status) : st.code.toNat ≤ 0x08 := by
  cases st <;> decide

theorem Status.code_eq_zero {st : Status} : st.code = 0x00 ↔ st = .ok := by
  cases st <;> decide

theorem frameErrorStatus_ne_ok (e : FrameError) : frameErrorStatus e ≠ .ok := by
  cases e <;> decide

/-- The recipient depends on the input port alone. -/
theorem recipient_congr {s t : State} (h : s.pending = t.pending) : s.recipient = t.recipient := by
  simp [State.recipient, State.nextInput, h]

theorem recipient_of_pending {s : State} {a : Agent} {t : Bytes} {rest : List Input}
    (h : s.pending = .transaction a t :: rest) : s.recipient = recipientOf a t := by
  simp [State.recipient, State.nextInput, h]

/-! ### Byte sequences -/

theorem slice_length {s : Bytes} {i j : Nat} (h : j < s.length) (hij : i ≤ j + 1) : (slice s i j).length = j + 1 - i := by
  simp [slice]; omega

theorem slice_append_of_lt {s extra : Bytes} {i j : Nat} (h : j < s.length) : slice (s ++ extra) i j = slice s i j := by
  unfold slice
  rcases Nat.lt_or_ge s.length i with hi | hi
  · rw [show j + 1 - i = 0 by omega]; simp
  · rw [List.drop_append_of_le_length hi, List.take_append_of_le_length (by simp; omega)]

theorem byteAt_append_of_lt {s extra : Bytes} {i : Nat} (h : i < s.length) : byteAt (s ++ extra) i = byteAt s i := by
  simp [byteAt, List.getD_eq_getElem?_getD, List.getElem?_append_left h]

/-! ### The frame codec -/

/-- `encodeFrame` answers for a payload of at most 254 bytes, and then with marker, body and CRC pair. -/
theorem encodeFrame_eq_some {cmd addr : Byte} {payload f : Bytes} :
    encodeFrame cmd payload addr = some f ↔
      payload.length ≤ 254 ∧
        f = 0x7F :: frameBody cmd payload addr ++ crcPair (frameBody cmd payload addr) := by
  unfold encodeFrame
  split
  · rename_i h
    rw [Option.some.injEq]
    exact ⟨fun e => ⟨h, e.symm⟩, fun e => e.2.symm⟩
  · rename_i h
    exact ⟨fun e => (by cases e), fun e => absurd e.1 h⟩

theorem encodeFrame_eq_none {cmd addr : Byte} {payload : Bytes} :
    encodeFrame cmd payload addr = none ↔ 254 < payload.length := by
  unfold encodeFrame
  split
  · rename_i h
    exact ⟨fun e => (by cases e), fun e => absurd (show payload.length ≤ 254 from h) (by omega)⟩
  · rename_i h
    exact ⟨fun _ => Nat.lt_of_not_le h, fun _ => rfl⟩

/-- A slice with the marker and a length byte is decided by its length, its checksum and a zero length byte, in this order. -/
theorem decodeFrame_marked (a l : Byte) (rest : Bytes) :
    decodeFrame (0x7F :: a :: l :: rest) =
      if rest.length < l.toNat + 2 then .error .truncated
      else if [byteAt rest l.toNat, byteAt rest (l.toNat + 1)] ≠ crcPair (a :: l :: rest.take l.toNat) then
        .error .checksumMismatch
      else if l.toNat = 0 then .error .lengthZero
      else .ok ⟨a, l, byteAt rest 0, (rest.drop 1).take (l.toNat - 1)⟩ := by
  have h3 : byteAt (0x7F :: a :: l :: rest) (3 + l.toNat) = byteAt rest l.toNat := by
    rw [Nat.add_comm]; rfl
  have h4 : byteAt (0x7F :: a :: l :: rest) (4 + l.toNat) = byteAt rest (l.toNat + 1) := by
    rw [show 4 + l.toNat = l.toNat + 1 + 3 by omega]; rfl
  have hs : slice (0x7F :: a :: l :: rest) 1 (2 + l.toNat) = a :: l :: rest.take l.toNat := by
    unfold slice
    rw [show 2 + l.toNat + 1 - 1 = l.toNat + 2 by omega]; rfl
  have hp : slice (0x7F :: a :: l :: rest) 4 (2 + l.toNat) = (rest.drop 1).take (l.toNat - 1) := by
    unfold slice
    rw [show 2 + l.toNat + 1 - 4 = l.toNat - 1 by omega]; rfl
  have h2 : byteAt (0x7F :: a :: l :: rest) 2 = l := rfl
  have h1 : byteAt (0x7F :: a :: l :: rest) 1 = a := rfl
  have h0 : byteAt (0x7F :: a :: l :: rest) 0 = Config.sof := rfl
  have hc : byteAt (0x7F :: a :: l :: rest) 3 = byteAt rest 0 := rfl
  unfold decodeFrame
  simp only [h0, h1, h2, h3, h4, hs, hp, hc, List.length_cons]
  simp only [Nat.add_eq_zero_iff, ne_eq, not_true_eq_false, if_false, and_false, one_ne_zero]
  rw [if_neg (show ¬ rest.length + 1 + 1 + 1 < 3 by omega)]
  by_cases h : rest.length < l.toNat + 2
  · rw [if_pos (show rest.length + 1 + 1 + 1 < l.toNat + 5 by omega), if_pos h]
  · rw [if_neg (show ¬ rest.length + 1 + 1 + 1 < l.toNat + 5 by omega), if_neg h]

/-! ### The boundary detector -/

theorem completesSlice_iff {buf : Bytes} :
    completesSlice buf = true ↔ 3 ≤ buf.length ∧ buf.length = (byteAt buf 2).toNat + 5 := by
  simp [completesSlice]

/-- `rxByte` either completes the slice, reports it and empties the buffer, or keeps the byte and reports nothing. -/
theorem rxByte_cases (buf : Bytes) (b : Byte) :
    (completesSlice (buf ++ [b]) = true ∧ rxByte buf b = ([], [⟨classify (decodeFrame (buf ++ [b])), buf ++ [b]⟩])) ∨
    (completesSlice (buf ++ [b]) = false ∧ rxByte buf b = (buf ++ [b], [])) := by
  unfold rxByte
  cases completesSlice (buf ++ [b]) <;> simp

@[simp] theorem reassemble_nil (buf : Bytes) : reassemble buf [] = (buf, []) := rfl

theorem reassemble_cons (buf data : Bytes) (b : Byte) :
    reassemble buf (b :: data) =
      ((reassemble (rxByte buf b).1 data).1, (rxByte buf b).2 ++ (reassemble (rxByte buf b).1 data).2) := rfl

/-- Two reads one after another are one read of both: the retained bytes carry over and the reports follow each other. -/
theorem reassemble_append (buf d e : Bytes) :
    reassemble buf (d ++ e) =
      ((reassemble (reassemble buf d).1 e).1, (reassemble buf d).2 ++ (reassemble (reassemble buf d).1 e).2) := by
  induction d generalizing buf with
  | nil => simp
  | cons b d ih => simp [reassemble_cons, ih]

/-- One more byte leaves retained bytes at rest. -/
theorem rxByte_atRest {buf : Bytes} (b : Byte) (h : rxAtRest buf) : rxAtRest (rxByte buf b).1 := by
  rcases rxByte_cases buf b with ⟨_, he⟩ | ⟨hc, he⟩
  · rw [he]; left; simp
  · rw [he]
    rw [← Bool.not_eq_true, completesSlice_iff] at hc
    simp only [rxAtRest, List.length_append, List.length_cons, List.length_nil] at *
    rcases Nat.lt_or_ge buf.length 3 with h3 | h3
    · omega
    · rw [byteAt_append_of_lt (by omega)] at *
      omega

/-- The analogue of a memory's canonical form: reassembly keeps the retained bytes at rest. -/
theorem reassemble_atRest {buf : Bytes} (data : Bytes) (h : rxAtRest buf) : rxAtRest (reassemble buf data).1 := by
  induction data generalizing buf with
  | nil => exact h
  | cons b data ih => exact ih (rxByte_atRest b h)

end Sys2Proof.Machine
end

