-- ==== Sys2Proof/Laws/Exec.lean ====
section
/-! SUPPORT. What `exec` and `step` can do, said once: the inversion lemmas that proofs over all transactions cite. -/

namespace Sys2Proof.Machine

/-- A transaction ends in one of two ways: with `returnOk`, in a state whose ports are as they were but for TX, or with `raise` of a status
that is not OK, in the state it met. -/
theorem exec_cases (i : Instr) (s : State) :
    (∃ results t, exec i s = returnOk results t ∧ t.pending = s.pending ∧ t.rsp = s.rsp) ∨
    (∃ st, st ≠ .ok ∧ exec i s = raise st s) := by
  cases i with
  | sessOpen a b =>
    simp only [exec, execSessOpen]
    split
    · exact .inl ⟨_, _, rfl, rfl, rfl⟩
    · exact .inr ⟨_, by decide, rfl⟩
  | frmEnc c a p =>
    simp only [exec, execFrmEnc]
    split
    · exact .inr ⟨_, by decide, rfl⟩
    · exact .inl ⟨_, _, rfl, rfl, rfl⟩
  | frmSend c p =>
    simp only [exec, execFrmSend]
    split
    · exact .inr ⟨_, by decide, rfl⟩
    · exact .inl ⟨_, _, rfl, rfl, rfl⟩
  | frmDec raw =>
    simp only [exec, execFrmDec]
    split
    · exact .inr ⟨_, frameErrorStatus_ne_ok _, rfl⟩
    · exact .inl ⟨_, _, rfl, rfl, rfl⟩
  | seqNext => exact .inl ⟨_, _, rfl, rfl, rfl⟩
  | seqPeek => exact .inl ⟨_, _, rfl, rfl, rfl⟩
  | crcCalc d => exact .inl ⟨_, _, rfl, rfl, rfl⟩
  | crcInit => exact .inl ⟨_, _, rfl, rfl, rfl⟩
  | crcFeed b => exact .inl ⟨_, _, rfl, rfl, rfl⟩
  | crcRead => exact .inl ⟨_, _, rfl, rfl, rfl⟩
  | rxPush d => exact .inl ⟨_, _, rfl, rfl, rfl⟩
  | rxFlush => exact .inl ⟨_, _, rfl, rfl, rfl⟩

/-- A step with a transaction at the head performs it and takes it off the port. -/
theorem step_transaction {s : State} {a : Agent} {t : Bytes} {rest : List Input}
    (h : s.pending = .transaction a t :: rest) : step s = retire (perform t s) := by
  simp [step, State.nextInput, h, takeTransaction]

/-- A step with a reset at the head takes it. -/
theorem step_reset {s : State} {rest : List Input} (h : s.pending = .reset :: rest) :
    step s = .next s.takeReset.popInput := by
  simp [step, State.nextInput, h, takeResetEvent, retire]

theorem perform_ok {t : Bytes} {i : Instr} (h : decode t = .ok i) (s : State) : perform t s = exec i s := by
  simp [perform, h]

theorem perform_error {t : Bytes} {e : DecodeError} (h : decode t = .error e) (s : State) :
    perform t s = raise (decodeErrorStatus e) s := by
  simp [perform, h]

/-- What a step can do: wait, take a reset, reject bytes, or perform the transaction they decode to. -/
theorem step_cases (s : State) :
    (s.pending = [] ∧ step s = .next s) ∨
    (∃ rest, s.pending = .reset :: rest ∧ step s = .next s.takeReset.popInput) ∨
    (∃ a t rest e, s.pending = .transaction a t :: rest ∧ decode t = .error e ∧
      step s = retire (raise (decodeErrorStatus e) s)) ∨
    (∃ a t rest i, s.pending = .transaction a t :: rest ∧ decode t = .ok i ∧ step s = retire (exec i s)) := by
  match h : s.pending with
  | [] => exact .inl ⟨rfl, by simp [step, State.nextInput, h, idle]⟩
  | .reset :: rest => exact .inr (.inl ⟨rest, rfl, step_reset h⟩)
  | .transaction a t :: rest =>
    cases hd : decode t with
    | error e => exact .inr (.inr (.inl ⟨a, t, rest, e, rfl, hd, by rw [step_transaction h, perform_error hd]⟩))
    | ok i => exact .inr (.inr (.inr ⟨a, t, rest, i, rfl, hd, by rw [step_transaction h, perform_ok hd]⟩))

end Sys2Proof.Machine
end

