-- ==== Sys2Proof/Laws/PerInstr.lean ====
section
/-! SUPPORT. Statements about every transaction as syntax, one lemma per constructor of `Instr`. -/

/-- The encoding of a well-formed transaction has the length that the opcode map gives for its opcode and counts (spec/30_encoding.md R69). -/
def Sys2Proof.Laws.EncodedLength.Statement (i : Sys2Proof.Instr) : Prop :=
  i.wf = true → Sys2Proof.Machine.mapLength (Sys2Proof.encode i) = some (Sys2Proof.encode i).length

namespace Sys2Proof.Laws.EncodedLength

theorem ofSeq16 {data : Bytes} (h : data.length ≤ maxSeq16) :
    ∃ lo hi, encodeSeq16 data = lo :: hi :: data ∧ lo.toNat + 256 * hi.toNat = data.length := by
  obtain ⟨lo, hi, hc, hv⟩ := exists_count16 h
  exact ⟨lo, hi, by simp [encodeSeq16, hc], hv⟩

theorem sessOpen (initSeq devId : Byte) : Statement (.sessOpen initSeq devId) := fun _ => rfl
theorem seqNext : Statement .seqNext := fun _ => rfl
theorem seqPeek : Statement .seqPeek := fun _ => rfl
theorem crcInit : Statement .crcInit := fun _ => rfl
theorem crcFeed (b : Byte) : Statement (.crcFeed b) := fun _ => rfl
theorem crcRead : Statement .crcRead := fun _ => rfl
theorem rxFlush : Statement .rxFlush := fun _ => rfl

theorem crcCalc (data : Bytes) : Statement (.crcCalc data) := by
  intro h
  obtain ⟨lo, hi, he, hv⟩ := ofSeq16 (of_decide_eq_true h)
  simp [encode, encodeOperands, Instr.opcode, opcodeByte, he, Machine.mapLength, Machine.byteAt]
  omega

theorem frmDec (raw : Bytes) : Statement (.frmDec raw) := by
  intro h
  obtain ⟨lo, hi, he, hv⟩ := ofSeq16 (of_decide_eq_true h)
  simp [encode, encodeOperands, Instr.opcode, opcodeByte, he, Machine.mapLength, Machine.byteAt]
  omega

theorem rxPush (data : Bytes) : Statement (.rxPush data) := by
  intro h
  obtain ⟨lo, hi, he, hv⟩ := ofSeq16 (of_decide_eq_true h)
  simp [encode, encodeOperands, Instr.opcode, opcodeByte, he, Machine.mapLength, Machine.byteAt]
  omega

theorem frmEnc (cmd addr : Byte) (payload : Bytes) : Statement (.frmEnc cmd addr payload) := by
  intro h
  have : payload.length ≤ 255 := of_decide_eq_true h
  simp [encode, encodeOperands, Instr.opcode, opcodeByte, encodeSeq8, Machine.mapLength, Machine.byteAt]
  omega

theorem frmSend (cmd : Byte) (payload : Bytes) : Statement (.frmSend cmd payload) := by
  intro h
  have : payload.length ≤ 255 := of_decide_eq_true h
  simp [encode, encodeOperands, Instr.opcode, opcodeByte, encodeSeq8, Machine.mapLength, Machine.byteAt]
  omega

end Sys2Proof.Laws.EncodedLength
end

