-- ==== Sys2Proof/Tests/Slice0.lean ====
section
/-! SUPPORT. Our own tests. Expected results are the spec's worked vectors (spec/95_test_vectors.md, cited by their ids) and the examples of
the rules; each runs one operation or one step. The witnesses at the end show that the hypotheses of the statements can be met together. -/

namespace Sys2Proof.Machine.Tests

/-- The state with one transaction on CMD. -/
def cmdState (t : Bytes) : State := { State.reset with pending := [.transaction .host t] }

/-- The reset state with some retained bytes. -/
def rxState (buf : Bytes) : State := { State.reset with rxBuf := buf }

/-- The state of an outcome. -/
def stateOf : Host.Outcome State Fault Refusal → Option State
  | .next s => some s
  | .fault _ => none
  | .refused _ => none

/-- The bytes of the newest response of an outcome. -/
def responseOf (o : Host.Outcome State Fault Refusal) : Option Bytes :=
  (stateOf o).bind fun s => s.rsp.getLast?.map Response.bytes

/-! ### WellFormed smoke: an ill-formed term for each check -/

theorem test_wf_refuses_crcCalc_65536 : (Instr.crcCalc (List.replicate 65536 0)).wf = false := by
  rw [Instr.wf, List.length_replicate]; decide
theorem test_wf_refuses_frmDec_65536 : (Instr.frmDec (List.replicate 65536 0)).wf = false := by
  rw [Instr.wf, List.length_replicate]; decide
theorem test_wf_refuses_rxPush_65536 : (Instr.rxPush (List.replicate 65536 0)).wf = false := by
  rw [Instr.wf, List.length_replicate]; decide
theorem test_wf_refuses_frmEnc_256 : (Instr.frmEnc 0 0 (List.replicate 256 0)).wf = false := by
  rw [Instr.wf, List.length_replicate]; decide
theorem test_wf_refuses_frmSend_256 : (Instr.frmSend 0 (List.replicate 256 0)).wf = false := by
  rw [Instr.wf, List.length_replicate]; decide
theorem test_wf_takes_frmSend_255 : (Instr.frmSend 0 (List.replicate 255 0)).wf = true := by
  rw [Instr.wf, List.length_replicate]; decide

/-! ### Decoding: a word of each constructor, written out from R69 and R74 -/

theorem test_decode_sessOpen : decode [0x01, 0x80, 0x05] = .ok (.sessOpen 0x80 0x05) := by decide
theorem test_decode_seqNext : decode [0x02] = .ok .seqNext := by decide
theorem test_decode_seqPeek : decode [0x03] = .ok .seqPeek := by decide
theorem test_decode_crcCalc : decode [0x10, 0x03, 0x00, 0x80, 0x01, 0x11] = .ok (.crcCalc [0x80, 0x01, 0x11]) := by decide
theorem test_decode_crcInit : decode [0x11] = .ok .crcInit := by decide
theorem test_decode_crcFeed : decode [0x12, 0x80] = .ok (.crcFeed 0x80) := by decide
theorem test_decode_crcRead : decode [0x13] = .ok .crcRead := by decide
theorem test_decode_frmEnc : decode [0x20, 0x3B, 0x00, 0x03, 0x01, 0x00, 0x02] = .ok (.frmEnc 0x3B 0x00 [0x01, 0x00, 0x02]) := by decide
theorem test_decode_frmSend : decode [0x21, 0x4A, 0x02, 0x01, 0x02] = .ok (.frmSend 0x4A [0x01, 0x02]) := by decide
theorem test_decode_frmDec :
    decode [0x22, 0x06, 0x00, 0x7F, 0x80, 0x01, 0x11, 0x65, 0x82] = .ok (.frmDec [0x7F, 0x80, 0x01, 0x11, 0x65, 0x82]) := by decide
theorem test_decode_rxPush : decode [0x30, 0x02, 0x00, 0x23, 0x80] = .ok (.rxPush [0x23, 0x80]) := by decide
theorem test_decode_rxFlush : decode [0x31] = .ok .rxFlush := by decide

/-- A 16-bit count is low byte first (R43): 0x0100 bytes, not 0x0001. -/
theorem test_decode_count_is_little_endian :
    decode ([0x10, 0x00, 0x01] ++ List.replicate 256 0x55) = .ok (.crcCalc (List.replicate 256 0x55)) := by decide +kernel

/-- V-ERR: reserved opcodes, whatever follows. -/
theorem test_decode_reserved :
    [[0x00], [0x40], [0xFF, 0x01, 0x02]].map decode = List.replicate 3 (.error .illegalOp) := by decide
/-- V-ERR: wrong lengths; the opcode is checked before the length, and an empty transaction is malformed. -/
theorem test_decode_malformed :
    [[], [0x02, 0x00], [0x20, 0x11, 0x80, 0x02, 0xAA], [0x22, 0x01, 0x00], [0x12], [0x01, 0x81],
      [0x30, 0x05, 0x00, 0x7F, 0x80, 0x01, 0x11]].map decode = List.replicate 7 (.error .malformed) := by decide

/-- The twelve rows of the opcode table, their operand bytes zero. -/
theorem test_table_words :
    [0x01, 0x02, 0x03, 0x10, 0x11, 0x12, 0x13, 0x20, 0x21, 0x22, 0x30, 0x31].map (decodeTableWord 8) =
      [some (.sessOpen 0 0), some .seqNext, some .seqPeek, some (.crcCalc []), some .crcInit, some (.crcFeed 0), some .crcRead,
        some (.frmEnc 0 0 []), some (.frmSend 0 []), some (.frmDec []), some (.rxPush []), some .rxFlush] := by decide +kernel

/-- A table word runs as the first transaction after reset: FRM_SEND 0x00, [] is V-ENC's row 9 with the flag high. -/
theorem test_withFetchWord_runs_frmSend :
    (stateOf (step (State.reset.withFetchWord 8 0x21))).map (fun s => (s.seqFlag, s.pending, s.rsp)) =
      some (0x00, [], [⟨.issuer .host, [0x00, 0x80]⟩]) := by decide +kernel

/-! ### One operation each: the spec's vectors -/

/-- R180's example and V-SESS row 9: the session is loaded and the retained bytes go. -/
theorem test_sessOpen_loads :
    stateOf (exec (.sessOpen 0x00 0x05) (rxState [0x7F, 0x80])) =
      some { State.reset with seqFlag := 0x00, devId := 0x05, rsp := [⟨.issuer .host, [0x00]⟩] } := by decide
/-- V-SEQ rows 5 and 6: operands out of range, nothing written. -/
theorem test_sessOpen_refuses :
    stateOf (exec (.sessOpen 0x81 0x00) (rxState [0x7F])) = some { rxState [0x7F] with rsp := [⟨.issuer .host, [0x07]⟩] } ∧
    stateOf (exec (.sessOpen 0x00 0x80) (rxState [0x7F])) = some { rxState [0x7F] with rsp := [⟨.issuer .host, [0x07]⟩] } := by decide
/-- V-SEQ row 3: after SESS_OPEN 0x80, 0x05 the address is 0x85, and the flag is low. -/
theorem test_seqNext_with_device :
    (stateOf (exec .seqNext { State.reset with devId := 0x05 })).map (fun s => (s.seqFlag, s.rsp)) =
      some (0x00, [⟨.issuer .host, [0x00, 0x85]⟩]) := by decide
/-- V-SEQ row 4: the flag, without the device id, and no toggle. -/
theorem test_seqPeek_reads :
    (stateOf (exec .seqPeek { State.reset with devId := 0x05 })).map (fun s => (s.seqFlag, s.rsp)) =
      some (0x80, [⟨.issuer .host, [0x00, 0x80]⟩]) := by decide
/-- V-CRC-9, the check string, and V-CRC-1, the empty list. -/
theorem test_crcCalc_vectors :
    responseOf (exec (.crcCalc [0x31, 0x32, 0x33, 0x34, 0x35, 0x36, 0x37, 0x38, 0x39]) State.reset) = some [0x00, 0xE7, 0xAE] ∧
    responseOf (exec (.crcCalc []) State.reset) = some [0x00, 0xFF, 0xFF] := by decide +kernel
theorem test_crcInit_seeds : (stateOf (exec .crcInit { State.reset with crcAcc := 0x1234 })).map State.crcAcc = some 0xFFFF := by decide
/-- V-STEP: 1234 with 56 gives 3598. -/
theorem test_crcFeed_step :
    (stateOf (exec (.crcFeed 0x56) { State.reset with crcAcc := 0x1234 })).map State.crcAcc = some 0x3598 := by decide +kernel
/-- P3 step 9: D05D is read low byte first. -/
theorem test_crcRead_low_byte_first : responseOf (exec .crcRead { State.reset with crcAcc := 0xD05D }) = some [0x00, 0x5D, 0xD0] := by decide
/-- V-ENC row 4. -/
theorem test_frmEnc_row4 :
    responseOf (exec (.frmEnc 0x4A 0x80 [0x01, 0x02, 0x03, 0x04, 0x05, 0x06, 0x07, 0x08]) State.reset) =
      some [0x00, 0x7F, 0x80, 0x09, 0x4A, 0x01, 0x02, 0x03, 0x04, 0x05, 0x06, 0x07, 0x08, 0xEE, 0x4A] := by decide +kernel
/-- V-ENC row 14: 255 payload bytes. -/
theorem test_frmEnc_too_long : responseOf (exec (.frmEnc 0x11 0x80 (List.replicate 255 0xAA)) State.reset) = some [0x05] := by decide +kernel
/-- V-ENC row 12 sent: dev_id 5, flag low; then the flag is high. -/
theorem test_frmSend_row12 :
    (stateOf (exec (.frmSend 0x11 []) { State.reset with seqFlag := 0x00, devId := 0x05 })).map (fun s => (s.seqFlag, s.tx)) =
      some (0x80, [[0x7F, 0x05, 0x01, 0x11, 0x22, 0x08]]) := by decide +kernel
/-- V-SEQ row 8: nothing sent, no toggle. -/
theorem test_frmSend_too_long :
    (stateOf (exec (.frmSend 0x11 (List.replicate 255 0)) State.reset)).map (fun s => (s.seqFlag, s.tx, s.rsp)) =
      some (0x80, [], [⟨.issuer .host, [0x05]⟩]) := by decide +kernel
/-- V-DEC rows 6, 13 and 15's head: extra bytes ignored, marker inside the payload kept. -/
theorem test_frmDec_accepts :
    responseOf (exec (.frmDec [0x7F, 0x80, 0x01, 0x11, 0x65, 0x82, 0xAA]) State.reset) = some [0x00, 0x80, 0x01, 0x11] ∧
    responseOf (exec (.frmDec [0x7F, 0x80, 0x02, 0x11, 0x7F, 0x31, 0xE7]) State.reset) = some [0x00, 0x80, 0x02, 0x11, 0x7F] := by
  decide +kernel
/-- V-DEC rows 1, 3, 4, 7 to 10 and 16: one status each, in the order of R104. -/
theorem test_frmDec_refuses :
    ([[], [0x7F, 0x80], [0x00, 0x80, 0x01, 0x11, 0x65, 0x82], [0x7F, 0x80, 0x01, 0x11, 0x65], [0x7F, 0x80, 0x01, 0x11, 0x82, 0x65],
      [0x7F, 0x80, 0x00, 0x04, 0x00], [0x7F, 0x80, 0x00, 0x00, 0x00], [0x7F, 0x80, 0xFF, 0x11]] : List Bytes).map
        (fun raw => responseOf (exec (.frmDec raw) State.reset)) =
      [some [0x01], some [0x01], some [0x03], some [0x01], some [0x02], some [0x04], some [0x02], some [0x01]] := by decide +kernel
/-- P4: a corrupt frame, junk, a zero-length frame and a valid frame in one read. -/
theorem test_rxPush_p4 :
    responseOf (exec (.rxPush [0x7F, 0x00, 0x01, 0x10, 0x66, 0x08, 0x00, 0x00, 0x00, 0xAA, 0xBB, 0x7F, 0x80, 0x00, 0x04, 0x00,
      0x7F, 0x80, 0x01, 0x11, 0x65, 0x82]) State.reset) =
      some [0x00, 0x04, 0x00, 0x02, 0x06, 0x00, 0x7F, 0x00, 0x01, 0x10, 0x66, 0x08, 0x03, 0x05, 0x00, 0x00, 0x00, 0x00, 0xAA, 0xBB,
        0x04, 0x05, 0x00, 0x7F, 0x80, 0x00, 0x04, 0x00, 0x00, 0x06, 0x00, 0x7F, 0x80, 0x01, 0x11, 0x65, 0x82] := by decide +kernel
/-- P1 step 5 and W6b: a frame completed by a later read; the bytes after it stay. -/
theorem test_rxPush_completes_and_retains :
    (stateOf (exec (.rxPush [0x23, 0x80, 0xAA, 0xBB, 0xCC]) (rxState [0x7F, 0x80, 0x01, 0xF0]))).map (fun s => (s.rxBuf, s.rsp)) =
      some ([0xAA, 0xBB, 0xCC], [⟨.issuer .host, [0x00, 0x01, 0x00, 0x00, 0x06, 0x00, 0x7F, 0x80, 0x01, 0xF0, 0x23, 0x80]⟩]) := by
  decide +kernel
/-- P2 step 3. -/
theorem test_rxFlush_returns :
    (stateOf (exec .rxFlush (rxState [0x7F, 0x00, 0x01]))).map (fun s => (s.rxBuf, s.rsp)) =
      some ([], [⟨.issuer .host, [0x00, 0x03, 0x00, 0x7F, 0x00, 0x01]⟩]) := by decide

/-! ### One step -/

/-- V-RX row 13: a malformed RX_PUSH takes no byte, and is answered at the consumer of reports. -/
theorem test_step_malformed_rxPush :
    stateOf (step { rxState [0x7F] with pending := [.transaction .transport [0x30, 0x05, 0x00, 0x7F]] }) =
      some { rxState [0x7F] with rsp := [⟨.reportConsumer, [0x08]⟩] } := by decide
/-- R230: a reset drops the retained bytes without a report, and the next transaction stays on CMD. -/
theorem test_step_reset :
    stateOf (step { State.reset with
      seqFlag := 0x00, devId := 0x05, crcAcc := 0x1234, rxBuf := [0x7F], pending := [.reset, .transaction .host [0x02]] }) =
      some { State.reset with pending := [.transaction .host [0x02]] } := by decide

/-! ### Witnesses: the hypotheses of the statements can be met together -/

theorem witness_ResetEventRestoresTheResetValues :
    ({ State.reset with rxBuf := [0x7F], pending := [.reset] } : State).pending = .reset :: [] := rfl
theorem witness_StepWithoutInputWaits : State.reset.pending = [] := rfl
theorem witness_StepRunsTheDecodedTransaction :
    (cmdState [0x12, 0x80]).pending = .transaction .host [0x12, 0x80] :: [] ∧ decode [0x12, 0x80] = .ok (.crcFeed 0x80) ∧
    (Instr.crcFeed 0x80).wf = true := by decide
/-- Both ends of each range of reserved opcodes. -/
theorem witness_ReservedOpcodesAreIllegalOp :
    (∀ op ∈ ([0x00, 0x04, 0x0F, 0x14, 0x1F, 0x23, 0x2F, 0x32, 0xFF] : Bytes),
      op.toNat = 0x00 ∨ (0x04 ≤ op.toNat ∧ op.toNat ≤ 0x0F) ∨ (0x14 ≤ op.toNat ∧ op.toNat ≤ 0x1F) ∨
        (0x23 ≤ op.toNat ∧ op.toNat ≤ 0x2F) ∨ (0x32 ≤ op.toNat ∧ op.toNat ≤ 0xFF)) ∧
    (cmdState [0x32]).pending = .transaction .host [0x32] :: [] := by decide
theorem witness_WrongLengthIsMalformed :
    (∀ t ∈ ([[0x02, 0x00], [0x01, 0x80], [0x10, 0x01], [0x20, 0x11, 0x80, 0x02, 0xAA]] : List Bytes),
      (byteAt t 0).toNat ∈ mapOpcodes ∧ mapLength t ≠ some t.length) ∧
    (cmdState []).pending = .transaction .host [] :: [] := by decide
theorem witness_EveryTransactionGetsOneResponse :
    (cmdState [0x30, 0x00, 0x00]).pending = .transaction .host [0x30, 0x00, 0x00] :: [] := rfl
theorem witness_FailingTransactionsWriteNothing :
    ∃ u r, (cmdState [0x01, 0x81, 0x00]).pending = .transaction .host [0x01, 0x81, 0x00] :: [] ∧
      step (cmdState [0x01, 0x81, 0x00]) = .next u ∧ u.rsp = (cmdState [0x01, 0x81, 0x00]).rsp ++ [r] ∧ r.bytes.head? ≠ some 0x00 :=
  ⟨_, ⟨.issuer .host, [0x07]⟩, rfl, rfl, rfl, by decide⟩
/-- The longest lists each count can hold. -/
theorem witness_DecodeOfEncodeIsTheTransaction :
    (Instr.rxPush (List.replicate 65535 0x7F)).wf = true ∧ (Instr.frmEnc 0xFF 0xFF (List.replicate 255 0x7F)).wf = true := by
  constructor <;> rw [Instr.wf, List.length_replicate] <;> decide
theorem witness_EncodeOfDecodeIsTheBytes : decode [0x21, 0x11, 0x01, 0x7F] = .ok (.frmSend 0x11 [0x7F]) := by decide
theorem witness_StreamLengthIsTheTransactionLength : decode [0x10, 0x01, 0x00, 0x7F] = .ok (.crcCalc [0x7F]) := by decide
/-- The range ends of SESS_OPEN's operands, the encodings of every length but two, and a state with one of them on CMD. -/
theorem witness_SessOpenStartsASession :
    ((0x80 : Byte) = 0x80 ∨ (0x80 : Byte) = 0x00) ∧ (0x7F : Byte).toNat ≤ 0x7F ∧
    ((0x00 : Byte) = 0x80 ∨ (0x00 : Byte) = 0x00) ∧ (0x00 : Byte).toNat ≤ 0x7F ∧
    ((0x81 : Byte) ≠ 0x80 ∧ (0x81 : Byte) ≠ 0x00) ∧ 0x7F < (0x80 : Byte).toNat ∧
    ([0x80] : Bytes).length ≠ 2 ∧ ([0x80, 0x00, 0x00] : Bytes).length ≠ 2 ∧
    (cmdState [0x01, 0x80]).pending = .transaction .host [0x01, 0x80] :: [] := by decide
theorem witness_AddressByteIsFlagAndDeviceId :
    (State.reset.seqFlag = 0x80 ∨ State.reset.seqFlag = 0x00) ∧
    (({ State.reset with seqFlag := 0x00, devId := 0x7F } : State).seqFlag = 0x80 ∨
      ({ State.reset with seqFlag := 0x00, devId := 0x7F } : State).seqFlag = 0x00) := by decide
/-- Also for SEQ_PEEK, CRC_INIT, CRC_READ and RX_FLUSH, with their own opcodes. -/
theorem witness_SeqNextTakesAnAddressAndToggles :
    ([0x00] : Bytes) ≠ [] ∧
    ∀ op ∈ ([0x02, 0x03, 0x11, 0x13, 0x31] : Bytes), (cmdState [op, 0x00]).pending = .transaction .host [op, 0x00] :: [] := by decide
theorem witness_AddressBytesAlternate :
    (∀ initSeq devId : Byte, Instr.sessOpen initSeq devId ∉ [Instr.seqNext, .seqPeek, .frmSend 0x11 []]) ∧
    (addressTrace [.seqNext, .seqPeek, .frmSend 0x11 []] State.reset)[1]? = some 0x00 ∧
    State.reset.seqFlag = 0x80 ∧ State.reset.devId = 0x00 :=
  ⟨fun _ _ => by simp, by decide +kernel, rfl, rfl⟩
/-- Also for FRM_DEC and RX_PUSH. The empty list; operands without a count; a count that is not that of the bytes. -/
theorem witness_CrcCalcReturnsTheChecksum :
    Seq16Operand [0x00, 0x00] [] ∧ Seq16Operand [0x01, 0x00, 0x7F] [0x7F] ∧ (∀ data, ¬ Seq16Operand [0x00] data) ∧
    (∀ data, ¬ Seq16Operand [0x00, 0x01, 0x7F] data) ∧
    ∀ op ∈ ([0x10, 0x22, 0x30] : Bytes), (cmdState [op, 0x00]).pending = .transaction .host [op, 0x00] :: [] := by
  refine ⟨⟨0, 0, rfl, rfl⟩, ⟨1, 0, rfl, rfl⟩, ?_, ?_, by decide⟩
  · rintro data ⟨lo, hi, h, _⟩
    simp at h
  · rintro data ⟨lo, hi, h, hl⟩
    simp only [List.cons.injEq] at h
    obtain ⟨rfl, rfl, rfl⟩ := h
    simp at hl
theorem witness_CrcFeedAdvancesTheAccumulator :
    ([] : Bytes).length ≠ 1 ∧ ([0x00, 0x00] : Bytes).length ≠ 1 ∧
    (cmdState [0x12]).pending = .transaction .host [0x12] :: [] := by decide
theorem witness_StreamingChecksumEqualsBlock :
    [Instr.crcFeed 0x80, .seqNext, .crcFeed 0x01, .crcRead].filter (fun i => i.opcode = .crcInit ∨ i.opcode = .crcFeed) =
      ([0x80, 0x01] : Bytes).map Instr.crcFeed := by decide
theorem witness_HighByteFirstResidueIsZero : wirePair (crc16 [0x80, 0x01, 0x11]) = [0x65, 0x82] := by decide +kernel
/-- The payload lengths at which the clauses of encode, FRM_ENC and FRM_SEND meet; also FrmSendIsSeqNextThenFrmEnc and
DecodeOfEncodedFrameIsTheFrame. -/
theorem witness_EncodeBuildsTheWireFrame :
    (List.replicate 254 0 : Bytes).length ≤ 254 ∧ 254 < (List.replicate 255 0 : Bytes).length ∧
    (List.replicate 255 0 : Bytes).length = 255 ∧ ([] : Bytes).length ≤ 254 := by
  rw [List.length_replicate, List.length_replicate]; decide
/-- Also for FRM_SEND. Operands that end before the count, and a count that is not that of the bytes. -/
theorem witness_FrmEncReturnsTheFrame :
    Seq8Operand [0x00] [] ∧ Seq8Operand [0x01, 0x7F] [0x7F] ∧
    (∀ (cmd addr : Byte) (tail payload : Bytes), ([0x11] : Bytes) = cmd :: addr :: tail → ¬ Seq8Operand tail payload) ∧
    (∀ (cmd : Byte) (tail payload : Bytes), ([0x11, 0x02, 0xAA] : Bytes) = cmd :: tail → ¬ Seq8Operand tail payload) ∧
    (cmdState [0x20, 0x11]).pending = .transaction .host [0x20, 0x11] :: [] ∧
    (cmdState [0x21, 0x11, 0x02, 0xAA]).pending = .transaction .host [0x21, 0x11, 0x02, 0xAA] :: [] := by
  refine ⟨⟨0, rfl, rfl⟩, ⟨1, rfl, rfl⟩, ?_, ?_, rfl, rfl⟩
  · intro cmd addr tail payload h
    simp at h
  · rintro cmd tail payload h ⟨n, h', hl⟩
    simp only [List.cons.injEq] at h
    obtain ⟨rfl, rfl⟩ := h
    simp only [List.cons.injEq] at h'
    obtain ⟨rfl, rfl⟩ := h'
    simp at hl
/-- Each clause with hypotheses at its edge: one byte short; a wrong pair at L = 0 and at L = 1; L = 1 and L = 255. -/
theorem witness_DecodeChecksInOrder :
    (0x7E : Byte) ≠ 0x7F ∧ ([0x11, 0x65] : Bytes).length < (0x01 : Byte).toNat + 2 ∧
    (([] : Bytes).length = (0x00 : Byte).toNat ∧ ([0x00, 0x00] : Bytes) ≠ wirePair (crc16 (0x80 :: 0x00 :: []))) ∧
    (([0x11] : Bytes).length = (0x01 : Byte).toNat ∧ ([0x82, 0x65] : Bytes) ≠ wirePair (crc16 (0x80 :: 0x01 :: [0x11]))) ∧
    ([] : Bytes).length + 1 = (0x01 : Byte).toNat ∧ (List.replicate 254 0x55 : Bytes).length + 1 = (0xFF : Byte).toNat := by
  decide +kernel
theorem witness_DecodeIgnoresBytesAfterTheFrame :
    3 ≤ ([0x7F, 0x80, 0x00, 0x04, 0x00] : Bytes).length ∧
    (byteAt [0x7F, 0x80, 0x00, 0x04, 0x00] 2).toNat + 5 ≤ ([0x7F, 0x80, 0x00, 0x04, 0x00] : Bytes).length := by decide
/-- The sync frame: a flip in the marker, in the address, in the last CRC byte, and one that makes the length grow. -/
theorem witness_SingleBitErrorsGiveTheStatedResults :
    encodeFrame 0x11 [] 0x80 = some [0x7F, 0x80, 0x01, 0x11, 0x65, 0x82] ∧
    0 < ([0x7F, 0x80, 0x01, 0x11, 0x65, 0x82] : Bytes).length ∧ 1 < ([0x7F, 0x80, 0x01, 0x11, 0x65, 0x82] : Bytes).length ∧
    5 < ([0x7F, 0x80, 0x01, 0x11, 0x65, 0x82] : Bytes).length ∧ 7 < 8 ∧
    byteAt [0x7F, 0x80, 0x01, 0x11, 0x65, 0x82] 2 < byteAt (flipBit [0x7F, 0x80, 0x01, 0x11, 0x65, 0x82] 2 7) 2 := by decide +kernel
theorem witness_TransmittedFramesDecode :
    ∃ t, step (cmdState [0x21, 0x11, 0x00]) = .next t ∧ t.tx = [wireFrame 0x11 [] 0x80] := ⟨_, rfl, by decide +kernel⟩
/-- A span that the byte completes, at the least length and at five bytes; and a byte that completes none. -/
theorem witness_RxByteEmitsAtTheSpan :
    (3 ≤ ([0x7F, 0x80, 0x00, 0x04] ++ [0x00] : Bytes).length ∧
      ([0x7F, 0x80, 0x00, 0x04] ++ [0x00] : Bytes).length = (byteAt ([0x7F, 0x80, 0x00, 0x04] ++ [0x00]) 2).toNat + 5) ∧
    ¬ (3 ≤ ([0x7F, 0x80] ++ [0x00] : Bytes).length ∧
      ([0x7F, 0x80] ++ [0x00] : Bytes).length = (byteAt ([0x7F, 0x80] ++ [0x00]) 2).toNat + 5) := by decide
theorem witness_RxPushReportsEverySlice :
    ([0x04, 0x00, 0x7F] : Bytes).foldl (fun p b => ((rxByte p.1 b).1, p.2 ++ (rxByte p.1 b).2)) ((rxState [0x7F, 0x80, 0x00]).rxBuf, []) =
      ([0x7F], [⟨.lengthZero, [0x7F, 0x80, 0x00, 0x04, 0x00]⟩]) := by decide +kernel
theorem witness_PushesGiveTheBatchSlices : State.reset.rxBuf = [] := rfl
theorem witness_EmittedSlicesAreNeverShort :
    (⟨.lengthZero, [0x7F, 0x80, 0x00, 0x04, 0x00]⟩ : Report) ∈ (reassemble [0x7F, 0x80, 0x00] [0x04, 0x00, 0x7F]).2 := by decide +kernel
theorem witness_ReportCountFitsItsField : (List.replicate 65535 0 : Bytes).length ≤ 65535 :=
  Nat.le_of_eq List.length_replicate
/-- A state that the invariant allows and reset is not: the longest retained bytes, flag low. -/
theorem witness_StepKeepsTheInvariant :
    ∃ s t : State, s.Inv ∧ s.rxBuf.length = 259 ∧ s.pending = [.transaction .transport [0x30, 0x01, 0x00, 0x55]] ∧ step s = .next t :=
  ⟨{ State.reset with
      seqFlag := 0x00, rxBuf := [0x7F, 0x00, 0xFF] ++ List.replicate 256 0x55,
      pending := [.transaction .transport [0x30, 0x01, 0x00, 0x55]] }, _, by decide +kernel, by decide +kernel, rfl, rfl⟩
/-- Two states that differ in all that SEQ_NEXT does not read. -/
theorem witness_OperationsReadOnlyTheirState :
    ∃ t t' : State, State.reset.seqFlag = ({ State.reset with crcAcc := 0, rxBuf := [0x7F] } : State).seqFlag ∧
      State.reset.devId = ({ State.reset with crcAcc := 0, rxBuf := [0x7F] } : State).devId ∧
      (Instr.seqNext.opcode ∉ [Opcode.crcFeed, .crcRead]) ∧ (Instr.seqNext.opcode ∉ [Opcode.rxPush, .rxFlush]) ∧
      exec .seqNext State.reset = .next t ∧ exec .seqNext { State.reset with crcAcc := 0, rxBuf := [0x7F] } = .next t' :=
  ⟨_, _, rfl, rfl, by decide, by decide, rfl, rfl⟩
/-- Opcodes on both sides of each clause of the W column. -/
theorem witness_OperationsWriteOnlyTheirState :
    Instr.crcRead.opcode ∉ [Opcode.sessOpen, .seqNext, .frmSend] ∧ Instr.crcRead.opcode ≠ .sessOpen ∧
    Instr.crcRead.opcode ∉ [Opcode.crcInit, .crcFeed] ∧ Instr.crcRead.opcode ∉ [Opcode.sessOpen, .rxPush, .rxFlush] ∧
    Instr.crcRead.opcode ≠ .frmSend := by decide
theorem witness_ReadOnlyOperationsRepeat :
    (Instr.frmDec [0x7F]).opcode ∈ [Opcode.seqPeek, .crcCalc, .crcRead, .frmEnc, .frmDec] := by decide
theorem witness_RxPushCommutesWithHostTransactions :
    (Instr.frmSend 0x11 []).opcode ∉ [Opcode.sessOpen, .rxPush, .rxFlush] := by decide

end Sys2Proof.Machine.Tests
end

/-! PROOFS. The state of the block (spec/10_state.md): the invariant of R21 and R25 over every step, the bytes of the reassembler, and
the reset values. -/

namespace Sys2Proof.Machine

/-! ### How an outcome is a next state -/

theorem returnOk_eq_next {results : Bytes} {s t : State} : returnOk results s = .next t ↔ t = s.respond .ok results := by
  rw [returnOk, Host.Outcome.next.injEq, eq_comm]

theorem raise_eq_next {st : Status} {s t : State} : raise st s = .next t ↔ t = s.respond st [] := by
  rw [raise, Host.Outcome.next.injEq, eq_comm]

theorem retire_eq_next {o : Host.Outcome State Fault Refusal} {t : State} :
    retire o = .next t ↔ ∃ u, o = .next u ∧ t = u.popInput := by
  cases o <;> simp [retire, eq_comm]

/-! ### SESS_OPEN -/

theorem exec_sessOpen_of_legal {initSeq devId : Byte} (h : legalSession initSeq devId = true) (s : State) :
    exec (.sessOpen initSeq devId) s =
      .next ((((s.setSeqFlag initSeq).setDevId (devIdOf devId)).setRxBuf []).respond .ok []) := by
  simp [exec, execSessOpen, h, returnOk]

theorem exec_sessOpen_of_illegal {initSeq devId : Byte} (h : legalSession initSeq devId = false) (s : State) :
    exec (.sessOpen initSeq devId) s = .next (s.respond .illegalOperand []) := by
  simp [exec, execSessOpen, h, raise]

theorem legalFlag_iff {v : Byte} : legalFlag v = true ↔ v = 0x80 ∨ v = 0x00 := by
  simp [legalFlag, Config.seqBit]

theorem legalSession_flag {initSeq devId : Byte} (h : legalSession initSeq devId = true) : initSeq = 0x80 ∨ initSeq = 0x00 := by
  rw [legalSession, Bool.and_eq_true] at h
  exact legalFlag_iff.mp h.1

/-! ### What a transaction does to the flag and to the retained bytes -/

/-- The five ways a transaction treats `S.seq_flag` and `S.rx_buf` (spec/20_memory.md R51, the W column): it writes neither, it starts a
session, it takes an address byte, it brings bytes in, or it flushes the retained bytes. -/
theorem exec_flag_and_rxBuf_cases {i : Instr} {s t : State} (h : exec i s = .next t) :
    (t.seqFlag = s.seqFlag ∧ t.rxBuf = s.rxBuf) ∨
    (∃ initSeq devId, i = .sessOpen initSeq devId ∧ legalSession initSeq devId = true ∧ t.seqFlag = initSeq ∧ t.rxBuf = []) ∨
    (takesAddress i = true ∧ t.seqFlag = s.seqFlag ^^^ 0x80 ∧ t.rxBuf = s.rxBuf) ∨
    (∃ data, i = .rxPush data ∧ t.seqFlag = s.seqFlag ∧ t.rxBuf = (reassemble s.rxBuf data).1) ∨
    (i = .rxFlush ∧ t.seqFlag = s.seqFlag ∧ t.rxBuf = []) := by
  cases i with
  | sessOpen initSeq devId =>
    cases hl : legalSession initSeq devId with
    | true =>
      rw [exec_sessOpen_of_legal hl] at h
      cases h
      exact .inr (.inl ⟨initSeq, devId, rfl, hl, rfl, rfl⟩)
    | false =>
      rw [exec_sessOpen_of_illegal hl] at h
      cases h
      exact .inl ⟨rfl, rfl⟩
  | frmSend cmd payload =>
    simp only [exec, execFrmSend] at h
    split at h
    case h_1 => cases raise_eq_next.mp h; exact .inl ⟨rfl, rfl⟩
    case h_2 frame hf =>
      have hlen : payload.length ≤ 254 := (encodeFrame_eq_some.mp hf).1
      cases returnOk_eq_next.mp h
      exact .inr (.inr (.inl ⟨decide_eq_true hlen, rfl, rfl⟩))
  | seqNext => cases returnOk_eq_next.mp h; exact .inr (.inr (.inl ⟨rfl, rfl, rfl⟩))
  | rxPush data => cases returnOk_eq_next.mp h; exact .inr (.inr (.inr (.inl ⟨data, rfl, rfl, rfl⟩)))
  | rxFlush => cases returnOk_eq_next.mp h; exact .inr (.inr (.inr (.inr ⟨rfl, rfl, rfl⟩)))
  | frmEnc cmd addr payload =>
    simp only [exec, execFrmEnc] at h
    split at h
    case h_1 => cases raise_eq_next.mp h; exact .inl ⟨rfl, rfl⟩
    case h_2 => cases returnOk_eq_next.mp h; exact .inl ⟨rfl, rfl⟩
  | frmDec raw =>
    simp only [exec, execFrmDec] at h
    split at h
    case h_1 => cases raise_eq_next.mp h; exact .inl ⟨rfl, rfl⟩
    case h_2 => cases returnOk_eq_next.mp h; exact .inl ⟨rfl, rfl⟩
  | seqPeek => cases returnOk_eq_next.mp h; exact .inl ⟨rfl, rfl⟩
  | crcCalc data => cases returnOk_eq_next.mp h; exact .inl ⟨rfl, rfl⟩
  | crcInit => cases returnOk_eq_next.mp h; exact .inl ⟨rfl, rfl⟩
  | crcFeed b => cases returnOk_eq_next.mp h; exact .inl ⟨rfl, rfl⟩
  | crcRead => cases returnOk_eq_next.mp h; exact .inl ⟨rfl, rfl⟩

/-! ### The invariant -/

/-- An empty buffer is at rest: the state after SESS_OPEN, RX_FLUSH and reset. -/
theorem rxAtRest_nil : rxAtRest [] := .inl (by decide)

/-- A length byte is at most 255, so bytes at rest are fewer than 260 (spec/10_state.md R25). -/
theorem length_le_of_rxAtRest {buf : Bytes} (h : rxAtRest buf) : buf.length ≤ 259 := by
  have hbyte : (byteAt buf 2).toNat < 2 ^ 8 := (byteAt buf 2).isLt
  rcases h with hshort | hspan <;> omega

/-- Toggling takes each of the two flag values to the other (spec/43_sequence.md R161). -/
theorem legalFlag_xor_seqBit {v : Byte} (h : v = 0x80 ∨ v = 0x00) : v ^^^ 0x80 = 0x80 ∨ v ^^^ 0x80 = 0x00 := by
  rcases h with rfl | rfl
  · exact .inr (by decide)
  · exact .inl (by decide)

/-- The invariant speaks of the flag and of the retained bytes alone. -/
theorem State.Inv.congr {s t : State} (hs : s.Inv) (hflag : t.seqFlag = s.seqFlag) (hbuf : t.rxBuf = s.rxBuf) : t.Inv := by
  rwa [State.Inv, hflag, hbuf]

theorem State.reset_inv : State.reset.Inv := ⟨.inl rfl, rxAtRest_nil⟩

theorem exec_keeps_inv {i : Instr} {s t : State} (hs : s.Inv) (h : exec i s = .next t) : t.Inv := by
  have ⟨hflag, hrest⟩ := hs
  rcases exec_flag_and_rxBuf_cases h with
    ⟨ht, hb⟩ | ⟨initSeq, devId, -, hl, ht, hb⟩ | ⟨-, ht, hb⟩ | ⟨data, -, ht, hb⟩ | ⟨-, ht, hb⟩
  case inl => exact hs.congr ht hb
  all_goals rw [State.Inv, ht, hb]
  case inr.inl => exact ⟨legalSession_flag hl, rxAtRest_nil⟩
  case inr.inr.inl => exact ⟨legalFlag_xor_seqBit hflag, hrest⟩
  case inr.inr.inr.inl => exact ⟨hflag, reassemble_atRest data hrest⟩
  case inr.inr.inr.inr => exact ⟨hflag, rxAtRest_nil⟩

theorem step_keeps_inv {s t : State} (hs : s.Inv) (h : step s = .next t) : t.Inv := by
  rcases step_cases s with
    ⟨-, hw⟩ | ⟨rest, -, hr⟩ | ⟨a, bytes, rest, e, -, -, he⟩ | ⟨a, bytes, rest, i, -, -, hi⟩
  case inl =>
    rw [hw] at h
    cases h
    exact hs
  case inr.inl =>
    rw [hr] at h
    cases h
    exact State.reset_inv.congr rfl rfl
  case inr.inr.inl =>
    rw [he] at h
    obtain ⟨u, hu, rfl⟩ := retire_eq_next.mp h
    cases raise_eq_next.mp hu
    exact hs.congr rfl rfl
  case inr.inr.inr =>
    rw [hi] at h
    obtain ⟨u, hu, rfl⟩ := retire_eq_next.mp h
    exact (exec_keeps_inv hs hu).congr rfl rfl

/-- Settles O47: the invariant over the four things a step can do; the bound then follows from rest alone. -/
theorem stepKeepsTheInvariant : Obligations.StepKeepsTheInvariant := by
  intro s t hs h
  have ht : t.Inv := step_keeps_inv hs h
  exact ⟨ht, length_le_of_rxAtRest ht.2⟩

/-! ### The bytes that go through the reassembler -/

/-- The held bytes and the new one go whole into the report or whole into the buffer. -/
theorem rxByte_keeps_bytes (buf : Bytes) (b : Byte) :
    buf ++ [b] = (rxByte buf b).2.flatMap Report.bytes ++ (rxByte buf b).1 := by
  rcases rxByte_cases buf b with ⟨-, he⟩ | ⟨-, he⟩
  · simp [he]
  · simp [he]

theorem reassemble_keeps_bytes (buf data : Bytes) :
    buf ++ data = (reassemble buf data).2.flatMap Report.bytes ++ (reassemble buf data).1 := by
  induction data generalizing buf with
  | nil => simp
  | cons b data ih =>
    calc buf ++ b :: data
        = (buf ++ [b]) ++ data := by simp
      _ = (rxByte buf b).2.flatMap Report.bytes ++ ((rxByte buf b).1 ++ data) := by
          rw [rxByte_keeps_bytes, List.append_assoc]
      _ = (reassemble buf (b :: data)).2.flatMap Report.bytes ++ (reassemble buf (b :: data)).1 := by
          rw [ih (rxByte buf b).1, reassemble_cons, List.flatMap_append, List.append_assoc]

/-- Settles O45, by induction on the data read. -/
theorem reassemblyKeepsEveryByte : Obligations.ReassemblyKeepsEveryByte := reassemble_keeps_bytes

/-! ### Reset -/

/-- Settles O1: the operands 0x80, 0x00 are legal, so SESS_OPEN writes exactly the three reset values. -/
theorem resetLeavesTheStatedValues : Obligations.ResetLeavesTheStatedValues := by
  have hl : legalSession 0x80 0x00 = true := by decide
  exact ⟨⟨rfl, rfl, rfl, rfl⟩, fun s => ⟨_, exec_sessOpen_of_legal hl s, rfl, rfl, rfl⟩⟩

/-- Settles O48. -/
theorem resetMeetsTheInvariant : Obligations.ResetMeetsTheInvariant := State.reset_inv

end Sys2Proof.Machine

/-! PROOFS. The shared state and the order of transactions (spec/20_memory.md): what each operation reads and writes (R51), an RX_PUSH
among host transactions (R52), the frames on TX (R49), and the step that performs a transaction (R47, R48). -/

namespace Sys2Proof.Machine

/-! ### The effect of a transaction

Every transaction ends in one response, and before it writes fixed values into some fields of S and may hand one frame to the
transport. An `Effect` is that as data, so the W column of R51 is a statement about its `none` fields, and the R column one about
which states give the same effect. -/

/-- The values written into the fields of S, the frame handed to TX, and the response; `none` where nothing is written. -/
structure Effect where
  seqFlag : Option Byte := none
  devId   : Option (BitVec 7) := none
  crcAcc  : Option U16 := none
  rxBuf   : Option Bytes := none
  frame   : Option Bytes := none
  status  : Status := .ok
  results : Bytes := []

namespace Effect

/-- The response of the effect, in the state the transaction meets. -/
def response (e : Effect) (s : State) : Response := ⟨s.recipient, e.status.code :: e.results⟩

/-- The state after the effect. -/
def apply (e : Effect) (s : State) : State where
  seqFlag := e.seqFlag.getD s.seqFlag
  devId := e.devId.getD s.devId
  crcAcc := e.crcAcc.getD s.crcAcc
  rxBuf := e.rxBuf.getD s.rxBuf
  pending := s.pending
  rsp := s.rsp ++ [e.response s]
  tx := e.frame.elim s.tx fun f => s.tx ++ [f]

@[simp] theorem apply_seqFlag (e : Effect) (s : State) : (e.apply s).seqFlag = e.seqFlag.getD s.seqFlag := rfl
@[simp] theorem apply_devId (e : Effect) (s : State) : (e.apply s).devId = e.devId.getD s.devId := rfl
@[simp] theorem apply_crcAcc (e : Effect) (s : State) : (e.apply s).crcAcc = e.crcAcc.getD s.crcAcc := rfl
@[simp] theorem apply_rxBuf (e : Effect) (s : State) : (e.apply s).rxBuf = e.rxBuf.getD s.rxBuf := rfl
@[simp] theorem apply_pending (e : Effect) (s : State) : (e.apply s).pending = s.pending := rfl
@[simp] theorem apply_rsp (e : Effect) (s : State) : (e.apply s).rsp = s.rsp ++ [e.response s] := rfl

@[simp] theorem apply_tx (e : Effect) (s : State) : (e.apply s).tx = s.tx ++ e.frame.toList := by
  cases h : e.frame with
  | none => simp [apply, h]
  | some f => simp [apply, h]

@[simp] theorem response_bytes (e : Effect) (s : State) : (e.response s).bytes = e.status.code :: e.results := rfl

theorem response_congr (e : Effect) {s s' : State} (h : s.pending = s'.pending) : e.response s = e.response s' := by
  rw [response, response, recipient_congr h]

/-- The effect writes within row `o` of R51's W column (RSP, which every operation writes, aside). -/
structure WritesWithin (o : Opcode) (e : Effect) : Prop where
  seqFlag : o ∉ [Opcode.sessOpen, .seqNext, .frmSend] → e.seqFlag = none
  devId : o ≠ .sessOpen → e.devId = none
  crcAcc : o ∉ [Opcode.crcInit, .crcFeed] → e.crcAcc = none
  rxBuf : o ∉ [Opcode.sessOpen, .rxPush, .rxFlush] → e.rxBuf = none
  frame : o ≠ .frmSend → e.frame = none

/-- An effect that only answers is within every row. -/
theorem answer_writesWithin (o : Opcode) (st : Status) (results : Bytes) :
    WritesWithin o { status := st, results := results } :=
  ⟨fun _ => rfl, fun _ => rfl, fun _ => rfl, fun _ => rfl, fun _ => rfl⟩

/-- An effect that only answers adds its response and changes nothing else. -/
theorem apply_answer (st : Status) (results : Bytes) (s : State) :
    ({ status := st, results := results } : Effect).apply s =
      { s with rsp := s.rsp ++ [⟨s.recipient, st.code :: results⟩] } := rfl

end Effect

/-- The effect of each transaction, in the state it meets. -/
def effectOf : Instr → State → Effect
  | .sessOpen initSeq devId, _ =>
    if legalSession initSeq devId then { seqFlag := some initSeq, devId := some (devIdOf devId), rxBuf := some [] }
    else { status := .illegalOperand }
  | .seqNext, s => { seqFlag := some (s.seqFlag ^^^ 0x80), results := [seqAddr s] }
  | .seqPeek, s => { results := [s.seqFlag] }
  | .crcCalc data, _ => { results := crcPair data }
  | .crcInit, _ => { crcAcc := some Config.crcSeed }
  | .crcFeed b, s => { crcAcc := some (crcStep s.crcAcc b) }
  | .crcRead, s => { results := le16 s.crcAcc }
  | .frmEnc cmd addr payload, _ =>
    match encodeFrame cmd payload addr with
    | none => { status := .payloadTooLong }
    | some frame => { results := frame }
  | .frmSend cmd payload, s =>
    match encodeFrame cmd payload (seqAddr s) with
    | none => { status := .payloadTooLong }
    | some frame => { seqFlag := some (s.seqFlag ^^^ 0x80), frame := some frame, results := [seqAddr s] }
  | .frmDec raw, _ =>
    match decodeFrame raw with
    | .error e => { status := frameErrorStatus e }
    | .ok f => { results := [f.address, f.length, f.command] ++ f.payload }
  | .rxPush data, s =>
    { rxBuf := some (reassemble s.rxBuf data).1, results := reportResults (reassemble s.rxBuf data).2 }
  | .rxFlush, s => { rxBuf := some [], results := count16 s.rxBuf.length ++ s.rxBuf }

/-- `exec` answers the state after the effect: what ties `effectOf` to the model. -/
theorem exec_eq_effect (i : Instr) (s : State) : exec i s = .next ((effectOf i s).apply s) := by
  cases i with
  | sessOpen initSeq devId =>
    cases hl : legalSession initSeq devId with
    | true => rw [exec_sessOpen_of_legal hl, effectOf, if_pos hl]; rfl
    | false => rw [exec_sessOpen_of_illegal hl, effectOf, if_neg (by simp [hl])]; rfl
  | frmEnc cmd addr payload =>
    simp only [exec, execFrmEnc, effectOf]
    cases encodeFrame cmd payload addr with
    | none => rfl
    | some frame => rfl
  | frmSend cmd payload =>
    simp only [exec, execFrmSend, effectOf]
    cases encodeFrame cmd payload (seqAddr s) with
    | none => rfl
    | some frame => rfl
  | frmDec raw =>
    simp only [exec, execFrmDec, effectOf]
    cases decodeFrame raw with
    | error e => rfl
    | ok f => rfl
  | seqNext => rfl
  | seqPeek => rfl
  | crcCalc data => rfl
  | crcInit => rfl
  | crcFeed b => rfl
  | crcRead => rfl
  | rxPush data => rfl
  | rxFlush => rfl

theorem exec_eq_next {i : Instr} {s t : State} : exec i s = .next t ↔ t = (effectOf i s).apply s := by
  rw [exec_eq_effect, Host.Outcome.next.injEq, eq_comm]

/-! ### The W column of R51 -/

/-- SEQ_PEEK, CRC_CALC, CRC_READ, FRM_ENC and FRM_DEC only answer. -/
theorem effectOf_readOnly {i : Instr} (s : State)
    (h : i.opcode ∈ [Opcode.seqPeek, .crcCalc, .crcRead, .frmEnc, .frmDec]) :
    ∃ st results, effectOf i s = { status := st, results := results } := by
  cases i with
  | seqPeek => exact ⟨_, _, rfl⟩
  | crcCalc data => exact ⟨_, _, rfl⟩
  | crcRead => exact ⟨_, _, rfl⟩
  | frmEnc cmd addr payload =>
    rw [effectOf]
    cases encodeFrame cmd payload addr with
    | none => exact ⟨_, _, rfl⟩
    | some frame => exact ⟨_, _, rfl⟩
  | frmDec raw =>
    rw [effectOf]
    cases decodeFrame raw with
    | error e => exact ⟨_, _, rfl⟩
    | ok f => exact ⟨_, _, rfl⟩
  | _ => simp [Instr.opcode] at h

theorem effectOf_writesWithin (i : Instr) (s : State) : (effectOf i s).WritesWithin i.opcode := by
  by_cases hr : i.opcode ∈ [Opcode.seqPeek, .crcCalc, .crcRead, .frmEnc, .frmDec]
  case pos =>
    obtain ⟨st, results, he⟩ := effectOf_readOnly s hr
    rw [he]
    exact Effect.answer_writesWithin _ st results
  cases i with
  | sessOpen initSeq devId =>
    rw [effectOf]
    split
    · exact ⟨fun h => (h (.head _)).elim, fun h => (h rfl).elim, fun _ => rfl, fun h => (h (.head _)).elim, fun _ => rfl⟩
    · exact Effect.answer_writesWithin _ _ _
  | frmSend cmd payload =>
    rw [effectOf]
    cases encodeFrame cmd payload (seqAddr s) with
    | none => exact Effect.answer_writesWithin _ _ _
    | some frame =>
      exact ⟨fun h => (h (.tail _ (.tail _ (.head _)))).elim, fun _ => rfl, fun _ => rfl, fun _ => rfl, fun h => (h rfl).elim⟩
  | seqNext => exact ⟨fun h => (h (.tail _ (.head _))).elim, fun _ => rfl, fun _ => rfl, fun _ => rfl, fun _ => rfl⟩
  | crcInit => exact ⟨fun _ => rfl, fun _ => rfl, fun h => (h (.head _)).elim, fun _ => rfl, fun _ => rfl⟩
  | crcFeed b => exact ⟨fun _ => rfl, fun _ => rfl, fun h => (h (.tail _ (.head _))).elim, fun _ => rfl, fun _ => rfl⟩
  | rxPush data => exact ⟨fun _ => rfl, fun _ => rfl, fun _ => rfl, fun h => (h (.tail _ (.head _))).elim, fun _ => rfl⟩
  | rxFlush =>
    exact ⟨fun _ => rfl, fun _ => rfl, fun _ => rfl, fun h => (h (.tail _ (.tail _ (.head _)))).elim, fun _ => rfl⟩
  | _ => simp [Instr.opcode] at hr

/-- Settles O49: a field that the effect does not write keeps its value. -/
theorem operationsWriteOnlyTheirState : Obligations.OperationsWriteOnlyTheirState := by
  intro i s
  have hw := effectOf_writesWithin i s
  refine ⟨_, exec_eq_effect i s, fun h => ?_, fun h => ?_, fun h => ?_, fun h => ?_, fun h => ?_, rfl, _, rfl, rfl⟩
  · simp [hw.seqFlag h]
  · simp [hw.devId h]
  · simp [hw.crcAcc h]
  · simp [hw.rxBuf h]
  · simp [hw.frame h]

/-! ### The R column of R51 -/

/-- The two states agree on the fields in row `o` of R51's R column. -/
structure ReadsAgree (o : Opcode) (s s' : State) : Prop where
  seqFlag : o ∈ [Opcode.seqNext, .seqPeek, .frmSend] → s.seqFlag = s'.seqFlag
  devId : o ∈ [Opcode.seqNext, .frmSend] → s.devId = s'.devId
  crcAcc : o ∈ [Opcode.crcFeed, .crcRead] → s.crcAcc = s'.crcAcc
  rxBuf : o ∈ [Opcode.rxPush, .rxFlush] → s.rxBuf = s'.rxBuf

theorem seqAddr_congr {s s' : State} (hflag : s.seqFlag = s'.seqFlag) (hdev : s.devId = s'.devId) : seqAddr s = seqAddr s' := by
  rw [seqAddr, seqAddr, hflag, hdev]

/-- An operation's effect depends only on what it reads. -/
theorem effectOf_congr {i : Instr} {s s' : State} (h : ReadsAgree i.opcode s s') : effectOf i s = effectOf i s' := by
  cases i with
  | seqNext =>
    have hflag := h.seqFlag (.head _)
    have hdev := h.devId (.head _)
    simp only [effectOf, hflag, seqAddr_congr hflag hdev]
  | frmSend cmd payload =>
    have hflag := h.seqFlag (.tail _ (.tail _ (.head _)))
    have hdev := h.devId (.tail _ (.head _))
    simp only [effectOf, hflag, seqAddr_congr hflag hdev]
  | seqPeek => simp only [effectOf, h.seqFlag (.tail _ (.head _))]
  | crcFeed b => simp only [effectOf, h.crcAcc (.head _)]
  | crcRead => simp only [effectOf, h.crcAcc (.tail _ (.head _))]
  | rxPush data => simp only [effectOf, h.rxBuf (.head _)]
  | rxFlush => simp only [effectOf, h.rxBuf (.tail _ (.head _))]
  | sessOpen initSeq devId => rfl
  | crcCalc data => rfl
  | crcInit => rfl
  | frmEnc cmd addr payload => rfl
  | frmDec raw => rfl

/-- One write into two states makes the field the same in both, or leaves it in both. -/
theorem getD_eq_or_untouched {α : Type} (w : Option α) (a b : α) : w.getD a = w.getD b ∨ (w.getD a = a ∧ w.getD b = b) := by
  cases w with
  | none => exact .inr ⟨rfl, rfl⟩
  | some v => exact .inl rfl

/-- Settles O50: the two states give one effect. -/
theorem operationsReadOnlyTheirState : Obligations.OperationsReadOnlyTheirState := by
  intro i s s' t t' hflag hdev hcrc hbuf h h'
  have he : effectOf i s = effectOf i s' := effectOf_congr ⟨hflag, hdev, hcrc, hbuf⟩
  rw [exec_eq_next] at h h'
  rw [← he] at h'
  subst h h'
  exact ⟨by simp, by simp, getD_eq_or_untouched _ _ _, getD_eq_or_untouched _ _ _, getD_eq_or_untouched _ _ _,
    getD_eq_or_untouched _ _ _⟩

/-- Settles O51: the operation only answers, and it reads nothing of the response port. -/
theorem readOnlyOperationsRepeat : Obligations.ReadOnlyOperationsRepeat := by
  intro i s hi
  obtain ⟨st, results, he⟩ := effectOf_readOnly s hi
  have hsame (rsp : List Response) : effectOf i { s with rsp := rsp } = effectOf i s :=
    effectOf_congr ⟨fun _ => rfl, fun _ => rfl, fun _ => rfl, fun _ => rfl⟩
  refine ⟨⟨s.recipient, st.code :: results⟩, ?_, ?_⟩
  · rw [exec_eq_effect, he, Effect.apply_answer]
  · rw [exec_eq_effect, hsame, he, Effect.apply_answer]; rfl

/-! ### An RX_PUSH among host transactions (R52) -/

/-- An RX_PUSH gives any other operation but RX_FLUSH the same state to read. -/
theorem effectOf_after_rxPush {i : Instr} (hi : i.opcode ∉ [Opcode.rxPush, .rxFlush]) (data : Bytes) (s : State) :
    effectOf i ((effectOf (.rxPush data) s).apply s) = effectOf i s :=
  effectOf_congr ⟨fun _ => rfl, fun _ => rfl, fun _ => rfl, fun h => absurd h hi⟩

theorem effectOf_rxPush (data : Bytes) (s : State) :
    effectOf (.rxPush data) s =
      { rxBuf := some (reassemble s.rxBuf data).1, results := reportResults (reassemble s.rxBuf data).2 } := rfl

/-- An RX_PUSH reads the retained bytes alone, so it has the same effect after an operation that does not write them. -/
theorem effectOf_rxPush_congr {s s' : State} (h : s.rxBuf = s'.rxBuf) (data : Bytes) :
    effectOf (.rxPush data) s = effectOf (.rxPush data) s' := by
  rw [effectOf_rxPush, effectOf_rxPush, h]

/-- Settles O52: neither of the two writes what the other reads, and they write different fields. -/
theorem rxPushCommutesWithHostTransactions : Obligations.RxPushCommutesWithHostTransactions := by
  intro i data s hi
  have hbuf : (effectOf i s).rxBuf = none := (effectOf_writesWithin i s).rxBuf hi
  have hi' : i.opcode ∉ [Opcode.rxPush, .rxFlush] := fun h => hi (.tail _ h)
  have hhost := effectOf_after_rxPush hi' data s
  have hpush : effectOf (.rxPush data) ((effectOf i s).apply s) = effectOf (.rxPush data) s :=
    effectOf_rxPush_congr (by simp [hbuf]) data
  refine ⟨_, _, _, _, _, _, exec_eq_effect _ _, exec_eq_effect _ _, exec_eq_effect _ _, exec_eq_effect _ _,
    rfl, ?_, rfl, ?_, ?_⟩
  · rw [hpush]; rfl
  · rw [hhost]; rfl
  · rw [hpush, hhost]
    simp [effectOf_rxPush, hbuf]

/-! ### The frames on TX (R49) -/

/-- A frame that `encodeFrame` builds is the wire format's (spec/30_encoding.md R60 to R63). -/
theorem encodeFrame_eq_wireFrame {cmd addr : Byte} {payload frame : Bytes} (h : encodeFrame cmd payload addr = some frame) :
    frame = wireFrame cmd payload addr := by
  obtain ⟨-, rfl⟩ := encodeFrame_eq_some.mp h
  simp [wireFrame, frameBody, crcPair, le16_eq_wirePair]

/-- A slice with the marker, a length byte that counts the command and the payload, and their checksum is a frame (R103, R104). -/
theorem decodeFrame_of_checksum {cmd addr len lo hi : Byte} {payload : Bytes} (hlen : len.toNat = payload.length + 1)
    (hcrc : [lo, hi] = crcPair (addr :: len :: cmd :: payload)) :
    decodeFrame (0x7F :: addr :: len :: cmd :: (payload ++ [lo, hi])) = .ok ⟨addr, len, cmd, payload⟩ := by
  have hread : [byteAt (cmd :: (payload ++ [lo, hi])) len.toNat, byteAt (cmd :: (payload ++ [lo, hi])) (len.toNat + 1)] =
      crcPair (addr :: len :: (cmd :: (payload ++ [lo, hi])).take len.toNat) := by
    simp [byteAt, hlen, ← hcrc]
  rw [decodeFrame_marked, if_neg (by simp [hlen]), if_neg (not_not_intro hread), if_neg (by omega)]
  simp [byteAt, hlen]

/-- What `encodeFrame` builds decodes to its command, address and payload (spec/41_frame_codec.md R109). -/
theorem decodeFrame_encodeFrame {cmd addr : Byte} {payload frame : Bytes} (h : encodeFrame cmd payload addr = some frame) :
    decodeFrame frame = .ok ⟨addr, BitVec.ofNat 8 (payload.length + 1), cmd, payload⟩ := by
  obtain ⟨hpayload, rfl⟩ := encodeFrame_eq_some.mp h
  have hlen : (BitVec.ofNat 8 (payload.length + 1)).toNat = payload.length + 1 := by
    rw [BitVec.toNat_ofNat]; omega
  exact decodeFrame_of_checksum hlen rfl

/-- A transaction hands over no frame, or it toggles the flag and hands over the frame with the counter's address byte (R165). -/
theorem effectOf_frame_cases (i : Instr) (s : State) :
    (effectOf i s).frame = none ∨
    ∃ cmd payload frame, encodeFrame cmd payload (seqAddr s) = some frame ∧ (effectOf i s).frame = some frame ∧
      (effectOf i s).seqFlag = some (s.seqFlag ^^^ 0x80) := by
  cases i with
  | frmSend cmd payload =>
    cases hf : encodeFrame cmd payload (seqAddr s) with
    | none => exact .inl (by simp [effectOf, hf])
    | some frame => exact .inr ⟨cmd, payload, frame, hf, by simp [effectOf, hf], by simp [effectOf, hf]⟩
  | _ => exact .inl ((effectOf_writesWithin _ s).frame (by simp [Instr.opcode]))

/-- Settles O37: of the four things a step can do, only a transaction that hands over a frame changes TX. -/
theorem transmittedFramesDecode : Obligations.TransmittedFramesDecode := by
  intro s t h
  rcases step_cases s with
    ⟨-, hw⟩ | ⟨rest, -, hr⟩ | ⟨a, bytes, rest, e, -, -, he⟩ | ⟨a, bytes, rest, i, -, -, hi⟩
  case inl =>
    rw [hw] at h
    cases h
    exact .inl rfl
  case inr.inl =>
    rw [hr] at h
    cases h
    exact .inl rfl
  case inr.inr.inl =>
    rw [he] at h
    cases h
    exact .inl rfl
  case inr.inr.inr =>
    rw [hi, exec_eq_effect] at h
    cases h
    rcases effectOf_frame_cases i s with hnone | ⟨cmd, payload, frame, henc, hframe, hflag⟩
    · exact .inl (by simp [hnone])
    · exact .inr ⟨cmd, payload, frame, by simp [hframe], (encodeFrame_eq_some.mp henc).1, encodeFrame_eq_wireFrame henc,
        decodeFrame_encodeFrame henc, by simp [hflag]⟩

/-! ### The step that performs a transaction (R47, R48) -/

/-- Settles O4: `exec` leaves the port as it was, so what the step takes off is the transaction it performed. -/
theorem stepRunsTheDecodedTransaction : Obligations.StepRunsTheDecodedTransaction := by
  intro s a t rest i hp hd _
  refine ⟨_, exec_eq_effect i s, rfl, ?_⟩
  rw [step_transaction hp, perform_ok hd, exec_eq_effect]
  simp [retire, State.popInput, hp]

end Sys2Proof.Machine

/-! PROOFS. The encoding of transactions (spec/30_encoding.md): decoder and encoder are inverse to each other (R67 to R69), the length
of a transaction is the one the opcode map gives (R69, R72, R73), and every transaction gets one response (R70). -/

namespace Sys2Proof

open Machine (mapLength mapOpcodes byteAt byteAt_append_of_lt Seq8Operand Seq16Operand)

/-! ### A list operand has one spelling (R68) -/

theorem seq8Operand_iff {t data : Bytes} : Seq8Operand t data ↔ data.length ≤ maxSeq8 ∧ t = encodeSeq8 data := by
  constructor
  · rintro ⟨n, rfl, hn⟩
    have hlt := n.isLt
    exact ⟨by rw [maxSeq8]; omega, by simp [encodeSeq8, hn]⟩
  · rintro ⟨hle, rfl⟩
    rw [maxSeq8] at hle
    exact ⟨_, rfl, by rw [BitVec.toNat_ofNat]; omega⟩

theorem seq16Operand_iff {t data : Bytes} : Seq16Operand t data ↔ data.length ≤ maxSeq16 ∧ t = encodeSeq16 data := by
  constructor
  · rintro ⟨lo, hi, rfl, hn⟩
    change data.length = u16Value lo hi at hn
    have hlt := u16Value_lt lo hi
    exact ⟨by rw [maxSeq16]; omega, by simp [encodeSeq16, hn]⟩
  · rintro ⟨hle, rfl⟩
    obtain ⟨lo, hi, hcount, hvalue⟩ := exists_count16 hle
    exact ⟨lo, hi, by simp [encodeSeq16, hcount], hvalue.symm⟩

theorem readSeq16_iff_encodeSeq16 {k : Bytes → Instr} {t : Bytes} {i : Instr} :
    readSeq16 k t = some i ↔ ∃ data, (data.length ≤ maxSeq16 ∧ t = encodeSeq16 data) ∧ k data = i := by
  rw [readSeq16_eq_some]
  constructor
  · rintro ⟨lo, hi, data, rfl, hn, rfl⟩
    exact ⟨data, seq16Operand_iff.mp ⟨lo, hi, rfl, hn⟩, rfl⟩
  · rintro ⟨data, h, rfl⟩
    obtain ⟨lo, hi, rfl, hn⟩ := seq16Operand_iff.mpr h
    exact ⟨lo, hi, data, rfl, hn, rfl⟩

theorem readU8Seq8_iff_encodeSeq8 {k : Byte → Bytes → Instr} {t : Bytes} {i : Instr} :
    readU8Seq8 k t = some i ↔ ∃ a data, (data.length ≤ maxSeq8 ∧ t = a :: encodeSeq8 data) ∧ k a data = i := by
  rw [readU8Seq8_eq_some]
  constructor
  · rintro ⟨a, n, data, rfl, hn, rfl⟩
    obtain ⟨hle, he⟩ := seq8Operand_iff.mp ⟨n, rfl, hn⟩
    exact ⟨a, data, ⟨hle, congrArg _ he⟩, rfl⟩
  · rintro ⟨a, data, ⟨hle, rfl⟩, rfl⟩
    obtain ⟨n, he, hn⟩ := seq8Operand_iff.mpr ⟨hle, rfl⟩
    exact ⟨a, n, data, congrArg _ he, hn, rfl⟩

theorem readU8U8Seq8_iff_encodeSeq8 {k : Byte → Byte → Bytes → Instr} {t : Bytes} {i : Instr} :
    readU8U8Seq8 k t = some i ↔ ∃ a b data, (data.length ≤ maxSeq8 ∧ t = a :: b :: encodeSeq8 data) ∧ k a b data = i := by
  rw [readU8U8Seq8_eq_some]
  constructor
  · rintro ⟨a, b, n, data, rfl, hn, rfl⟩
    obtain ⟨hle, he⟩ := seq8Operand_iff.mp ⟨n, rfl, hn⟩
    exact ⟨a, b, data, ⟨hle, by rw [he]⟩, rfl⟩
  · rintro ⟨a, b, data, ⟨hle, rfl⟩, rfl⟩
    obtain ⟨n, he, hn⟩ := seq8Operand_iff.mpr ⟨hle, rfl⟩
    exact ⟨a, b, n, data, by rw [he], hn, rfl⟩

/-! ### Decoder and encoder (R67 to R69) -/

theorem decodeOperands_encodeOperands {i : Instr} (h : i.wf = true) :
    decodeOperands i.opcode (encodeOperands i) = some i := by
  cases i with
  | crcCalc data => exact readSeq16_iff_encodeSeq16.mpr ⟨data, ⟨of_decide_eq_true h, rfl⟩, rfl⟩
  | frmDec raw => exact readSeq16_iff_encodeSeq16.mpr ⟨raw, ⟨of_decide_eq_true h, rfl⟩, rfl⟩
  | rxPush data => exact readSeq16_iff_encodeSeq16.mpr ⟨data, ⟨of_decide_eq_true h, rfl⟩, rfl⟩
  | frmSend cmd payload => exact readU8Seq8_iff_encodeSeq8.mpr ⟨cmd, payload, ⟨of_decide_eq_true h, rfl⟩, rfl⟩
  | frmEnc cmd addr payload => exact readU8U8Seq8_iff_encodeSeq8.mpr ⟨cmd, addr, payload, ⟨of_decide_eq_true h, rfl⟩, rfl⟩
  | sessOpen initSeq devId => rfl
  | crcFeed b => rfl
  | seqNext => rfl
  | seqPeek => rfl
  | crcInit => rfl
  | crcRead => rfl
  | rxFlush => rfl

theorem eq_encodeOperands_of_decodeOperands {o : Opcode} {t : Bytes} {i : Instr} (h : decodeOperands o t = some i) :
    i.opcode = o ∧ i.wf = true ∧ t = encodeOperands i := by
  cases o with
  | crcCalc => obtain ⟨data, ⟨hle, rfl⟩, rfl⟩ := readSeq16_iff_encodeSeq16.mp h; exact ⟨rfl, decide_eq_true hle, rfl⟩
  | frmDec => obtain ⟨raw, ⟨hle, rfl⟩, rfl⟩ := readSeq16_iff_encodeSeq16.mp h; exact ⟨rfl, decide_eq_true hle, rfl⟩
  | rxPush => obtain ⟨data, ⟨hle, rfl⟩, rfl⟩ := readSeq16_iff_encodeSeq16.mp h; exact ⟨rfl, decide_eq_true hle, rfl⟩
  | frmSend =>
    obtain ⟨cmd, payload, ⟨hle, rfl⟩, rfl⟩ := readU8Seq8_iff_encodeSeq8.mp h
    exact ⟨rfl, decide_eq_true hle, rfl⟩
  | frmEnc =>
    obtain ⟨cmd, addr, payload, ⟨hle, rfl⟩, rfl⟩ := readU8U8Seq8_iff_encodeSeq8.mp h
    exact ⟨rfl, decide_eq_true hle, rfl⟩
  | sessOpen => obtain ⟨initSeq, devId, rfl, rfl⟩ := readU8U8_eq_some.mp h; exact ⟨rfl, rfl, rfl⟩
  | crcFeed => obtain ⟨b, rfl, rfl⟩ := readU8_eq_some.mp h; exact ⟨rfl, rfl, rfl⟩
  | seqNext => obtain ⟨rfl, rfl⟩ := readNone_eq_some.mp h; exact ⟨rfl, rfl, rfl⟩
  | seqPeek => obtain ⟨rfl, rfl⟩ := readNone_eq_some.mp h; exact ⟨rfl, rfl, rfl⟩
  | crcInit => obtain ⟨rfl, rfl⟩ := readNone_eq_some.mp h; exact ⟨rfl, rfl, rfl⟩
  | crcRead => obtain ⟨rfl, rfl⟩ := readNone_eq_some.mp h; exact ⟨rfl, rfl, rfl⟩
  | rxFlush => obtain ⟨rfl, rfl⟩ := readNone_eq_some.mp h; exact ⟨rfl, rfl, rfl⟩

theorem decode_encode {i : Instr} (h : i.wf = true) : decode (encode i) = .ok i :=
  decode_eq_ok.mpr ⟨i.opcode, encodeOperands i, rfl, decodeOperands_encodeOperands h⟩

/-- Settles O11: each operand reader takes what the encoder writes for its layout. -/
theorem decodeOfEncodeIsTheTransaction : Obligations.DecodeOfEncodeIsTheTransaction := fun _ => decode_encode

/-- Settles O12: what a reader answers has only the operand bytes it was given. -/
theorem encodeOfDecodeIsTheBytes : Obligations.EncodeOfDecodeIsTheBytes := by
  intro t i h
  obtain ⟨o, operands, rfl, ho⟩ := decode_eq_ok.mp h
  obtain ⟨rfl, hwf, rfl⟩ := eq_encodeOperands_of_decodeOperands ho
  exact ⟨rfl, hwf⟩

/-- Settles O10: the six words are the encodings of the transactions they stand for. -/
theorem writtenOutWordsDecode : Obligations.WrittenOutWordsDecode :=
  ⟨decode_encode (i := .sessOpen 0x00 0x05) rfl, decode_encode (i := .seqNext) rfl,
    decode_encode (i := .crcCalc [0x80, 0x01, 0x11]) rfl, decode_encode (i := .frmEnc 0x11 0x80 []) rfl,
    decode_encode (i := .frmSend 0x11 []) rfl, decode_encode (i := .rxPush [0x7F, 0x80]) rfl⟩

/-! ### The operand length of a layout (R69, R73) -/

theorem operandLength_seq16 (t : Bytes) :
    operandLength .seq16 t = if 2 ≤ t.length then some (2 + u16Value (byteAt t 0) (byteAt t 1)) else none := by
  match t with
  | [] => rfl
  | [_] => rfl
  | _ :: _ :: _ => simp [operandLength, byteAt]

theorem operandLength_u8seq8 (t : Bytes) :
    operandLength .u8seq8 t = if 2 ≤ t.length then some (2 + (byteAt t 1).toNat) else none := by
  match t with
  | [] => rfl
  | [_] => rfl
  | _ :: _ :: _ => simp [operandLength, byteAt]

theorem operandLength_u8u8seq8 (t : Bytes) :
    operandLength .u8u8seq8 t = if 3 ≤ t.length then some (3 + (byteAt t 2).toNat) else none := by
  match t with
  | [] => rfl
  | [_] => rfl
  | [_, _] => rfl
  | _ :: _ :: _ :: _ => simp [operandLength, byteAt]

/-- Once the count field is there, bytes that follow do not change the length. -/
theorem operandLength_append {f : Format} {t : Bytes} {n : Nat} (h : operandLength f t = some n) (rest : Bytes) :
    operandLength f (t ++ rest) = some n := by
  cases f with
  | none => exact h
  | u8 => exact h
  | u8u8 => exact h
  | seq16 =>
    rw [operandLength_seq16, Option.ite_none_right_eq_some] at h
    obtain ⟨hlen, hn⟩ := h
    rw [operandLength_seq16, if_pos (by simp; omega), byteAt_append_of_lt (by omega), byteAt_append_of_lt (by omega), hn]
  | u8seq8 =>
    rw [operandLength_u8seq8, Option.ite_none_right_eq_some] at h
    obtain ⟨hlen, hn⟩ := h
    rw [operandLength_u8seq8, if_pos (by simp; omega), byteAt_append_of_lt (by omega), hn]
  | u8u8seq8 =>
    rw [operandLength_u8u8seq8, Option.ite_none_right_eq_some] at h
    obtain ⟨hlen, hn⟩ := h
    rw [operandLength_u8u8seq8, if_pos (by simp; omega), byteAt_append_of_lt (by omega), hn]

/-! ### Each reader answers exactly at the length of its layout -/

theorem readNone_answers_iff (i : Instr) (t : Bytes) :
    (∃ j, readNone i t = some j) ↔ operandLength .none t = some t.length := by
  cases t with
  | nil => simp [readNone, operandLength]
  | cons a t => simp [readNone, operandLength]

theorem readU8_answers_iff (k : Byte → Instr) (t : Bytes) :
    (∃ i, readU8 k t = some i) ↔ operandLength .u8 t = some t.length := by
  match t with
  | [] => simp [readU8, operandLength]
  | [_] => simp [readU8, operandLength]
  | _ :: _ :: _ => simp [readU8, operandLength]

theorem readU8U8_answers_iff (k : Byte → Byte → Instr) (t : Bytes) :
    (∃ i, readU8U8 k t = some i) ↔ operandLength .u8u8 t = some t.length := by
  match t with
  | [] => simp [readU8U8, operandLength]
  | [_] => simp [readU8U8, operandLength]
  | [_, _] => simp [readU8U8, operandLength]
  | _ :: _ :: _ :: _ => simp [readU8U8, operandLength]

theorem readSeq16_answers_iff (k : Bytes → Instr) (t : Bytes) :
    (∃ i, readSeq16 k t = some i) ↔ operandLength .seq16 t = some t.length := by
  match t with
  | [] => simp [readSeq16, operandLength]
  | [_] => simp [readSeq16, operandLength]
  | lo :: hi :: data => simp [readSeq16, operandLength]; omega

theorem readU8Seq8_answers_iff (k : Byte → Bytes → Instr) (t : Bytes) :
    (∃ i, readU8Seq8 k t = some i) ↔ operandLength .u8seq8 t = some t.length := by
  match t with
  | [] => simp [readU8Seq8, operandLength]
  | [_] => simp [readU8Seq8, operandLength]
  | _ :: n :: data => simp [readU8Seq8, operandLength]; omega

theorem readU8U8Seq8_answers_iff (k : Byte → Byte → Bytes → Instr) (t : Bytes) :
    (∃ i, readU8U8Seq8 k t = some i) ↔ operandLength .u8u8seq8 t = some t.length := by
  match t with
  | [] => simp [readU8U8Seq8, operandLength]
  | [_] => simp [readU8U8Seq8, operandLength]
  | [_, _] => simp [readU8U8Seq8, operandLength]
  | _ :: _ :: n :: data => simp [readU8U8Seq8, operandLength]; omega

theorem decodeOperands_answers_iff (o : Opcode) (t : Bytes) :
    (∃ i, decodeOperands o t = some i) ↔ operandLength (formatOf o) t = some t.length := by
  cases o with
  | sessOpen => exact readU8U8_answers_iff _ t
  | seqNext => exact readNone_answers_iff _ t
  | seqPeek => exact readNone_answers_iff _ t
  | crcCalc => exact readSeq16_answers_iff _ t
  | crcInit => exact readNone_answers_iff _ t
  | crcFeed => exact readU8_answers_iff _ t
  | crcRead => exact readNone_answers_iff _ t
  | frmEnc => exact readU8U8Seq8_answers_iff _ t
  | frmSend => exact readU8Seq8_answers_iff _ t
  | frmDec => exact readSeq16_answers_iff _ t
  | rxPush => exact readSeq16_answers_iff _ t
  | rxFlush => exact readNone_answers_iff _ t

/-! ### The length of a transaction (R69, R72, R73) -/

theorem transactionLength_eq_some {t : Bytes} {n : Nat} :
    transactionLength t = some n ↔
      ∃ o operands m, t = opcodeByte o :: operands ∧ operandLength (formatOf o) operands = some m ∧ 1 + m = n := by
  constructor
  · intro h
    match t with
    | [] => simp [transactionLength] at h
    | op :: operands =>
      cases ho : opcodeOf op with
      | none => simp [transactionLength, ho] at h
      | some o =>
        simp only [transactionLength, ho, Option.map_eq_some_iff] at h
        obtain ⟨m, hm, hn⟩ := h
        exact ⟨o, operands, m, by rw [opcodeByte_of_opcodeOf ho], hm, hn⟩
  · rintro ⟨o, operands, m, rfl, hm, hn⟩
    simp [transactionLength, hm, hn]

theorem decode_answers_iff (t : Bytes) : (∃ i, decode t = .ok i) ↔ transactionLength t = some t.length := by
  rw [transactionLength_eq_some]
  constructor
  · rintro ⟨i, h⟩
    obtain ⟨o, operands, rfl, hd⟩ := decode_eq_ok.mp h
    exact ⟨o, operands, _, rfl, (decodeOperands_answers_iff o operands).mp ⟨i, hd⟩, by rw [List.length_cons, Nat.add_comm]⟩
  · rintro ⟨o, operands, m, rfl, hm, hn⟩
    obtain rfl : m = operands.length := by rw [List.length_cons] at hn; omega
    obtain ⟨i, hd⟩ := (decodeOperands_answers_iff o operands).mpr hm
    exact ⟨i, decode_eq_ok.mpr ⟨o, operands, rfl, hd⟩⟩

theorem transactionLength_append {t : Bytes} {n : Nat} (h : transactionLength t = some n) (rest : Bytes) :
    transactionLength (t ++ rest) = some n := by
  obtain ⟨o, operands, m, rfl, hm, hn⟩ := transactionLength_eq_some.mp h
  exact transactionLength_eq_some.mpr ⟨o, operands ++ rest, m, rfl, operandLength_append hm rest, hn⟩

/-- Settles O14: the length is found without what follows, and for a transaction alone it is its own. -/
theorem streamLengthIsTheTransactionLength : Obligations.StreamLengthIsTheTransactionLength := by
  intro t rest i h
  exact transactionLength_append ((decode_answers_iff t).mp ⟨i, h⟩) rest

/-! ### The length column of the opcode map (R69) -/

theorem mem_mapOpcodes_iff {op : Byte} : op.toNat ∈ mapOpcodes ↔ ∃ o, op = opcodeByte o := by
  have hmap : mapOpcodes = opcodeMap.map fun o => (opcodeByte o).toNat := rfl
  have hall (o : Opcode) : o ∈ opcodeMap := by cases o <;> decide
  simp [hmap, hall, BitVec.toNat_inj, eq_comm]

theorem mapLength_of_reserved {op : Byte} (h : op.toNat ∉ mapOpcodes) (operands : Bytes) : mapLength (op :: operands) = none := by
  simp only [mapOpcodes, List.mem_cons, List.not_mem_nil, or_false, not_or] at h
  simp [mapLength, h]

theorem mapLength_opcodeByte (o : Opcode) (operands : Bytes) :
    mapLength (opcodeByte o :: operands) = (operandLength (formatOf o) operands).map (1 + ·) := by
  cases o with
  | crcCalc => rw [formatOf, operandLength_seq16, apply_ite (Option.map _), Option.map_some, ← Nat.add_assoc]; rfl
  | frmDec => rw [formatOf, operandLength_seq16, apply_ite (Option.map _), Option.map_some, ← Nat.add_assoc]; rfl
  | rxPush => rw [formatOf, operandLength_seq16, apply_ite (Option.map _), Option.map_some, ← Nat.add_assoc]; rfl
  | frmSend => rw [formatOf, operandLength_u8seq8, apply_ite (Option.map _), Option.map_some, ← Nat.add_assoc]; rfl
  | frmEnc => rw [formatOf, operandLength_u8u8seq8, apply_ite (Option.map _), Option.map_some, ← Nat.add_assoc]; rfl
  | sessOpen => rfl
  | seqNext => rfl
  | seqPeek => rfl
  | crcInit => rfl
  | crcFeed => rfl
  | crcRead => rfl
  | rxFlush => rfl

/-- The length that the block finds in a stream (R73) is the one of the map's length column (R69), for any bytes. -/
theorem mapLength_eq_transactionLength (t : Bytes) : mapLength t = transactionLength t := by
  match t with
  | [] => rfl
  | op :: operands =>
    by_cases hop : op.toNat ∈ mapOpcodes
    · obtain ⟨o, rfl⟩ := mem_mapOpcodes_iff.mp hop
      simp [mapLength_opcodeByte, transactionLength]
    · have hnone : opcodeOf op = none := opcodeOf_eq_none fun o ho => hop (mem_mapOpcodes_iff.mpr ⟨o, ho⟩)
      simp [mapLength_of_reserved hop, transactionLength, hnone]

/-- Settles O13: each reader answers exactly at the length of its layout, and the map's column gives that length. -/
theorem wellFormedExactlyAtTheMapLength : Obligations.WellFormedExactlyAtTheMapLength := by
  intro t
  rw [mapLength_eq_transactionLength]
  exact decode_answers_iff t

end Sys2Proof

namespace Sys2Proof.Machine

/-! ### The response to a transaction (R70, spec/60_exceptions.md R200) -/

/-- Legal or not, a transaction's bytes end with `returnOk` or with `raise` of a status that is not OK: `exec_cases`, with the bytes that
do not decode among the second. -/
theorem perform_cases (t : Bytes) (s : State) :
    (∃ results u, perform t s = returnOk results u ∧ u.pending = s.pending ∧ u.rsp = s.rsp) ∨
    (∃ st, st ≠ .ok ∧ perform t s = raise st s) := by
  cases hd : decode t with
  | ok i => rw [perform_ok hd]; exact exec_cases i s
  | error e => exact .inr ⟨_, by cases e <;> decide, perform_error hd s⟩

/-- Whose response it is shows in the first byte (spec/10_state.md R30). -/
theorem recipientOf_eq (a : Agent) (t : Bytes) :
    recipientOf a t = if t.head? = some 0x30 then .reportConsumer else .issuer a := by
  cases t with
  | nil => rfl
  | cons op operands => exact if_congr Option.some_inj.symm rfl rfl

/-- Settles O8: both ways a transaction can end add one response, to the recipient that the input port names. -/
theorem everyTransactionGetsOneResponse : Obligations.EveryTransactionGetsOneResponse := by
  intro s a t rest hp
  have hdest : s.recipient = if t.head? = some 0x30 then .reportConsumer else .issuer a := by
    rw [recipient_of_pending hp, recipientOf_eq]
  rw [step_transaction hp]
  rcases perform_cases t s with ⟨results, u, he, hpending, hrsp⟩ | ⟨st, hst, he⟩
  · refine ⟨(u.respond .ok results).popInput, u.recipient, 0x00, results, by rw [he]; rfl, by simp [hpending, hp], ?_,
      by decide, fun h => absurd rfl h, by rw [recipient_congr hpending, hdest]⟩
    rw [← hrsp]; rfl
  · exact ⟨(s.respond st []).popInput, s.recipient, st.code, [], by rw [he]; rfl, by simp [hp], rfl, st.code_le,
      fun _ => rfl, hdest⟩

end Sys2Proof.Machine

/-! PROOFS. The checksum (spec/40_checksum.md): the step and the fold from the seed (R80, R81), the four checksum transactions (R83 to
R86), streaming against block (R87), and the residue of a checksum fed back (R89). -/

namespace Sys2Proof.Machine

/-! ### Bytes that are no transaction (R72, spec/44_session_transmit.md R184) -/

/-- Bytes that do not decode get the status of the error, and the step takes them off the port. -/
theorem refuses_of_decode_error {t : Bytes} {e : DecodeError} (h : decode t = .error e) :
    Refuses t (decodeErrorStatus e).code := by
  intro s a rest hp
  refine ⟨s.recipient, ?_⟩
  rw [step_transaction hp, perform_error h, raise_eq]
  simp [retire, State.popInput, hp]

/-- Operand bytes that the operation's reader does not take are malformed. -/
theorem refuses_of_decodeOperands {o : Opcode} {operands : Bytes} (h : decodeOperands o operands = none) :
    Refuses (opcodeByte o :: operands) 0x08 :=
  refuses_of_decode_error (e := .malformed) (by rw [decode_cons (opcodeOf_opcodeByte o), h])

theorem readNone_eq_none {i : Instr} {t : Bytes} : readNone i t = none ↔ t ≠ [] := by
  simp [Option.eq_none_iff_forall_ne_some, readNone_eq_some]

theorem readU8_eq_none {k : Byte → Instr} {t : Bytes} : readU8 k t = none ↔ t.length ≠ 1 := by
  simp [Option.eq_none_iff_forall_ne_some, readU8_eq_some, List.length_eq_one_iff]

theorem readSeq16_eq_none {k : Bytes → Instr} {t : Bytes} : readSeq16 k t = none ↔ ∀ data, ¬ Seq16Operand t data := by
  rw [Option.eq_none_iff_forall_ne_some]
  constructor
  · rintro h data ⟨lo, hi, ht, hlen⟩
    exact h (k data) (readSeq16_eq_some.mpr ⟨lo, hi, data, ht, hlen, rfl⟩)
  · intro h i hi
    obtain ⟨lo, hi, data, ht, hlen, -⟩ := readSeq16_eq_some.mp hi
    exact h data ⟨lo, hi, ht, hlen⟩

/-! ### The step and the fold (R80, R81) -/

/-- Settles O20: the rounds are iterated, and the bit that a round tests is bit 15. -/
theorem crcStepIsEightRounds : Obligations.CrcStepIsEightRounds := by
  intro r b
  have hround : crcRound = fun x : U16 => if x.getLsbD 15 = true then (x <<< 1) ^^^ 0x8005 else x <<< 1 := by
    funext x
    rw [crcRound, BitVec.msb_eq_getLsbD_last]
    rfl
  rw [crcStep_eq_iterate, hround]

/-- Settles O21. -/
theorem checksumFoldsTheStepFromTheSeed : Obligations.ChecksumFoldsTheStepFromTheSeed :=
  ⟨crc16_nil, fun s b => crc16_append s [b]⟩

/-! ### The four checksum transactions (R83 to R86) -/

/-- Settles O22: the operands are the encoder's, its CRC pair is the wire's, and CRC_CALC only answers. -/
theorem crcCalcReturnsTheChecksum : Obligations.CrcCalcReturnsTheChecksum := by
  refine ⟨fun operands data h => ?_, fun operands h => ?_, fun data s => ?_⟩
  · obtain ⟨hlen, rfl⟩ := seq16Operand_iff.mp h
    exact decode_encode (i := .crcCalc data) (decide_eq_true hlen)
  · exact refuses_of_decodeOperands (o := .crcCalc) (readSeq16_eq_none.mpr h)
  · rw [← le16_eq_wirePair]
    exact returnOk_eq (crcPair data) s

/-- Settles O23. -/
theorem crcInitLoadsTheSeed : Obligations.CrcInitLoadsTheSeed := by
  refine ⟨decode_encode (i := .crcInit) rfl, fun operands h => ?_, fun s => ?_⟩
  · exact refuses_of_decodeOperands (o := .crcInit) (readNone_eq_none.mpr h)
  · exact returnOk_eq [] (s.setCrcAcc Config.crcSeed)

/-- Settles O24. -/
theorem crcFeedAdvancesTheAccumulator : Obligations.CrcFeedAdvancesTheAccumulator := by
  refine ⟨fun b => decode_encode (i := .crcFeed b) rfl, fun operands h => ?_, fun b s => ?_, by decide, by decide⟩
  · exact refuses_of_decodeOperands (o := .crcFeed) (readU8_eq_none.mpr h)
  · exact returnOk_eq [] (s.setCrcAcc (crcStep s.crcAcc b))

/-- Settles O25. -/
theorem crcReadReturnsTheAccumulator : Obligations.CrcReadReturnsTheAccumulator := by
  refine ⟨decode_encode (i := .crcRead) rfl, fun operands h => ?_, fun s => ?_⟩
  · exact refuses_of_decodeOperands (o := .crcRead) (readNone_eq_none.mpr h)
  · rw [← le16_eq_wirePair]
    exact returnOk_eq (le16 s.crcAcc) s

/-! ### Streaming equals block (R87) -/

/-- The state after a run of transactions: each takes its effect in the state the one before it left. -/
def stateAfter (is : List Instr) (s : State) : State := is.foldl (fun t i => (effectOf i t).apply t) s

@[simp] theorem stateAfter_nil (s : State) : stateAfter [] s = s := rfl

@[simp] theorem stateAfter_cons (i : Instr) (is : List Instr) (s : State) :
    stateAfter (i :: is) s = stateAfter is ((effectOf i s).apply s) := rfl

@[simp] theorem stateAfter_append (is js : List Instr) (s : State) :
    stateAfter (is ++ js) s = stateAfter js (stateAfter is s) := List.foldl_append

/-- A run never stops: what ties `stateAfter` to the model. -/
theorem execAll_eq_stateAfter (is : List Instr) (s : State) : execAll is s = .next (stateAfter is s) := by
  induction is generalizing s with
  | nil => rfl
  | cons i is ih => rw [execAll, exec_eq_effect, stateAfter_cons, ← ih]

/-- The transaction writes `S.crc_acc` (R51). -/
def writesCrcAcc (i : Instr) : Bool := decide (i.opcode = .crcInit ∨ i.opcode = .crcFeed)

theorem apply_crcAcc_of_not_writes {i : Instr} (h : ¬ writesCrcAcc i = true) (s : State) :
    ((effectOf i s).apply s).crcAcc = s.crcAcc := by
  have hnone : (effectOf i s).crcAcc = none := (effectOf_writesWithin i s).crcAcc (by simpa [writesCrcAcc] using h)
  rw [Effect.apply_crcAcc, hnone, Option.getD_none]

/-- A run that writes the accumulator only by the feeds of some data takes it through one step per byte, whatever else runs. -/
theorem stateAfter_crcAcc {is : List Instr} {data : Bytes} (h : is.filter writesCrcAcc = data.map .crcFeed) (s : State) :
    (stateAfter is s).crcAcc = data.foldl crcStep s.crcAcc := by
  induction is generalizing data s with
  | nil =>
    obtain rfl : data = [] := List.map_eq_nil_iff.mp h.symm
    rfl
  | cons i is ih =>
    by_cases hi : writesCrcAcc i = true
    · rw [List.filter_cons_of_pos hi] at h
      obtain ⟨b, rest, rfl, rfl, hrest⟩ := List.map_eq_cons_iff.mp h.symm
      exact ih hrest.symm _
    · rw [List.filter_cons_of_neg hi] at h
      rw [stateAfter_cons, ih h, apply_crcAcc_of_not_writes hi]

/-- The newest response after an effect is the one it gives. -/
theorem apply_newestResponse (e : Effect) (s : State) :
    (e.apply s).rsp.getLast?.map Response.bytes = some (e.status.code :: e.results) := by
  rw [Effect.apply_rsp, List.getLast?_concat, Option.map_some, Effect.response_bytes]

/-- Settles O26: CRC_INIT seeds the accumulator, the run leaves the checksum of its feeds there, and CRC_READ answers it. -/
theorem streamingChecksumEqualsBlock : Obligations.StreamingChecksumEqualsBlock := by
  refine ⟨fun s data is h => ?_, crc16_append⟩
  have hacc : (stateAfter (.crcInit :: is) s).crcAcc = crc16 data := stateAfter_crcAcc h _
  have hread : (stateAfter (.crcInit :: (is ++ [.crcRead])) s).rsp.getLast?.map Response.bytes =
      some (0x00 :: wirePair (crc16 data)) := by
    rw [← hacc, ← le16_eq_wirePair, ← List.cons_append, stateAfter_append]
    exact apply_newestResponse _ _
  have hcalc : ((effectOf (.crcCalc data) s).apply s).rsp.getLast?.map Response.bytes =
      some (0x00 :: wirePair (crc16 data)) := by
    rw [← le16_eq_wirePair]
    exact apply_newestResponse _ _
  exact ⟨_, _, execAll_eq_stateAfter _ _, exec_eq_effect _ _, hread.trans hcalc.symm, hread⟩

/-! ### The residue of a checksum fed back (R89) -/

/-- As long as no set bit reaches bit 15, the rounds only shift. -/
theorem crcRounds_eq_shiftLeft {n : Nat} {r : U16} (h : r.toNat * 2 ^ n < 2 ^ 16) : crcRound^[n] r = r <<< n := by
  induction n with
  | zero => simp
  | succ n ih =>
    rw [Nat.pow_succ, ← Nat.mul_assoc] at h
    have hshift : (r <<< n).toNat = r.toNat * 2 ^ n := by
      rw [BitVec.toNat_shiftLeft, Nat.shiftLeft_eq, Nat.mod_eq_of_lt (by omega)]
    have hmsb : (r <<< n).msb = false := by
      rw [BitVec.msb_eq_false_iff_two_mul_lt, hshift]; omega
    rw [Function.iterate_succ_apply', ih (by omega), crcRound, hmsb, BitVec.shiftLeft_add]
    rfl

/-- Feeding the register its own high byte moves its low byte up. -/
theorem crcStep_highByte (r : U16) : crcStep r (highByte r) = (lowByte r).setWidth 16 <<< 8 := by
  have hlow : r ^^^ ((highByte r).setWidth 16 <<< 8) = (lowByte r).setWidth 16 := by
    ext i hi
    by_cases hi8 : i < 8
    · simp [lowByte, hi8, hi]
    · simp [lowByte, highByte, hi8, hi, show i - 8 < 8 by omega, show 8 + (i - 8) = i by omega]
  have hlt := (lowByte r).isLt
  rw [crcStep_eq_iterate, hlow]
  exact crcRounds_eq_shiftLeft (by simp; omega)

/-- A byte that meets itself in the high byte of the register clears it, and zero stays zero. -/
theorem crcStep_shifted_self (b : Byte) : crcStep (b.setWidth 16 <<< 8) b = 0 := by
  rw [crcStep_eq_iterate, BitVec.xor_self]
  exact crcRounds_eq_shiftLeft (by decide)

/-- Settles O27: the high byte moves the low byte up, where the low byte clears it. -/
theorem highByteFirstResidueIsZero : Obligations.HighByteFirstResidueIsZero := by
  refine ⟨fun s lo hi h => ?_, by decide +kernel⟩
  rw [← le16_eq_wirePair, le16, List.cons.injEq, List.cons.injEq] at h
  obtain ⟨rfl, rfl, -⟩ := h
  calc crc16 (s ++ [highByte (crc16 s), lowByte (crc16 s)])
      = crcStep (crcStep (crc16 s) (highByte (crc16 s))) (lowByte (crc16 s)) := crc16_append s _
    _ = crcStep ((lowByte (crc16 s)).setWidth 16 <<< 8) (lowByte (crc16 s)) := by rw [crcStep_highByte]
    _ = 0 := crcStep_shifted_self _

end Sys2Proof.Machine

/-! PROOFS. The frame codec (spec/41_frame_codec.md): what encode builds and FRM_ENC returns (R101, R102), the checks of decode
and their order (R103 to R106, R111), the round trip (R109), what FRM_DEC returns (R108), and single-bit errors (R110). -/

namespace Sys2Proof.Machine

/-! ### The CRC pair of a body -/

@[simp] theorem crcPair_length (s : Bytes) : (crcPair s).length = 2 := rfl

theorem crcPair_eq_wirePair (s : Bytes) : crcPair s = wirePair (crc16 s) := le16_eq_wirePair _

/-- A pair belongs to one checksum only. -/
theorem crc16_eq_of_crcPair_eq {s t : Bytes} (h : crcPair s = crcPair t) : crc16 s = crc16 t := le16_injective h

/-! ### What encode builds (R101, R102) -/

/-- Up to 254 payload bytes the length byte holds their number and the command's (R101). -/
theorem lengthByte_toNat {n : Nat} (h : n ≤ 254) : (BitVec.ofNat 8 (n + 1)).toNat = n + 1 := by
  rw [BitVec.toNat_ofNat]; omega

theorem frameBody_length {cmd addr : Byte} {payload : Bytes} : (frameBody cmd payload addr).length = payload.length + 3 := by
  simp [frameBody]

/-- The length byte of a body that `encodeFrame` accepts measures it. -/
theorem frameBody_lengthByte {cmd addr : Byte} {payload : Bytes} (h : payload.length ≤ 254) :
    (byteAt (frameBody cmd payload addr) 1).toNat = payload.length + 1 := lengthByte_toNat h

theorem wireFrame_length (cmd addr : Byte) (payload : Bytes) : (wireFrame cmd payload addr).length = payload.length + 6 := by
  simp [wireFrame, wirePair]

theorem wireFrame_lengthByte {payload : Bytes} (h : payload.length ≤ 254) (cmd addr : Byte) :
    (byteAt (wireFrame cmd payload addr) 2).toNat = payload.length + 1 := lengthByte_toNat h

theorem encodeFrame_eq_some_wireFrame {payload : Bytes} (h : payload.length ≤ 254) (cmd addr : Byte) :
    encodeFrame cmd payload addr = some (wireFrame cmd payload addr) := by
  have henc := encodeFrame_eq_some (cmd := cmd) (addr := addr).mpr ⟨h, rfl⟩
  rw [henc, encodeFrame_eq_wireFrame henc]

/-- Settles O28: the length byte holds one more than the payload's length. -/
theorem encodeBuildsTheWireFrame : Obligations.EncodeBuildsTheWireFrame := by
  intro cmd addr payload
  refine ⟨fun h => ?_, encodeFrame_eq_none.mpr⟩
  rw [wireFrame_length, wireFrame_lengthByte h]
  exact ⟨encodeFrame_eq_some_wireFrame h cmd addr, rfl, rfl, by omega, by omega⟩

/-- Operand bytes are refused exactly when they are not two bytes and a `seq8` (R68). -/
theorem readU8U8Seq8_eq_none {k : Byte → Byte → Bytes → Instr} {t : Bytes} :
    readU8U8Seq8 k t = none ↔ ∀ (a b : Byte) (tail data : Bytes), t = a :: b :: tail → ¬ Seq8Operand tail data := by
  rw [Option.eq_none_iff_forall_ne_some]
  constructor
  · rintro h a b _ data rfl ⟨n, rfl, hlen⟩
    exact h (k a b data) (readU8U8Seq8_eq_some.mpr ⟨a, b, n, data, rfl, hlen, rfl⟩)
  · intro h i hi
    obtain ⟨a, b, n, data, rfl, hlen, -⟩ := readU8U8Seq8_eq_some.mp hi
    exact h a b _ data rfl ⟨n, rfl, hlen⟩

theorem effectOf_frmEnc_of_some {cmd addr : Byte} {payload frame : Bytes} (h : encodeFrame cmd payload addr = some frame)
    (s : State) : effectOf (.frmEnc cmd addr payload) s = { results := frame } := by
  simp only [effectOf, h]

theorem effectOf_frmEnc_of_none {cmd addr : Byte} {payload : Bytes} (h : encodeFrame cmd payload addr = none)
    (s : State) : effectOf (.frmEnc cmd addr payload) s = { status := .payloadTooLong } := by
  simp only [effectOf, h]

/-- Settles O29: FRM_ENC only answers, with the frame or with the status of an `encodeFrame` that has no value. -/
theorem frmEncReturnsTheFrame : Obligations.FrmEncReturnsTheFrame := by
  refine ⟨?operands, ?malformed, ?frame, ?tooLong⟩
  case operands =>
    intro cmd addr operands payload h
    obtain ⟨hlen, rfl⟩ := seq8Operand_iff.mp h
    exact decode_encode (i := .frmEnc cmd addr payload) (decide_eq_true hlen)
  case malformed =>
    intro operands h
    exact refuses_of_decodeOperands (o := .frmEnc) (readU8U8Seq8_eq_none.mpr h)
  case frame =>
    intro cmd addr payload s h
    rw [exec_eq_effect, effectOf_frmEnc_of_some (encodeFrame_eq_some_wireFrame h cmd addr)]
    rfl
  case tooLong =>
    intro cmd addr payload s h
    rw [exec_eq_effect, effectOf_frmEnc_of_none (encodeFrame_eq_none.mpr (by omega))]
    rfl

/-! ### Decode by the shape of the slice (R103, R104, R111) -/

theorem decodeFrame_of_wrong_marker {m : Byte} (h : m ≠ 0x7F) (rest : Bytes) :
    decodeFrame (m :: rest) = .error .badMarker := by
  have hm : byteAt (m :: rest) 0 ≠ Config.sof := h
  rw [decodeFrame, if_neg (by simp), if_pos hm]

theorem decodeFrame_of_short {l : Byte} {rest : Bytes} (h : rest.length < l.toNat + 2) (a : Byte) :
    decodeFrame (0x7F :: a :: l :: rest) = .error .truncated := by
  rw [decodeFrame_marked, if_pos h]

/-- Enough bytes after the length byte are the span that it counts, the CRC pair, and what follows the frame. -/
theorem exists_span_and_pair {n : Nat} {rest : Bytes} (h : n + 2 ≤ rest.length) :
    ∃ span lo hi extra, rest = span ++ lo :: hi :: extra ∧ span.length = n := by
  have hlen : (rest.drop n).length = rest.length - n := List.length_drop
  match hd : rest.drop n with
  | [] => simp [hd] at hlen; omega
  | [_] => simp [hd] at hlen; omega
  | lo :: hi :: extra =>
    exact ⟨rest.take n, lo, hi, extra, by rw [← hd, List.take_append_drop], by rw [List.length_take]; omega⟩

/-- A slice that holds its L + 5 bytes is decided by its checksum and a zero length byte; what follows the pair plays no part. -/
theorem decodeFrame_of_span {l : Byte} {span : Bytes} (h : span.length = l.toNat) (a lo hi : Byte) (extra : Bytes) :
    decodeFrame (0x7F :: a :: l :: (span ++ lo :: hi :: extra)) =
      if [lo, hi] ≠ crcPair (a :: l :: span) then .error .checksumMismatch
      else if l.toNat = 0 then .error .lengthZero
      else .ok ⟨a, l, byteAt span 0, span.drop 1⟩ := by
  have hlo : byteAt (span ++ lo :: hi :: extra) l.toNat = lo := by simp [byteAt, ← h]
  have hhi : byteAt (span ++ lo :: hi :: extra) (l.toNat + 1) = hi := by simp [byteAt, ← h]
  have hspan : (span ++ lo :: hi :: extra).take l.toNat = span := by simp [← h]
  have hpayload : ((span ++ lo :: hi :: extra).drop 1).take (l.toNat - 1) = span.drop 1 := by
    rw [← List.drop_take, hspan]
  rw [decodeFrame_marked, if_neg (by simp; omega), hlo, hhi, hspan, hpayload]
  by_cases hl : l.toNat = 0
  · rw [if_pos hl, if_pos hl]
  · rw [byteAt_append_of_lt (by omega)]

/-- With the right pair only a zero length byte can fail (R104, R111). -/
theorem decodeFrame_of_crcPair {l : Byte} {span : Bytes} (h : span.length = l.toNat) (a : Byte) (extra : Bytes) :
    decodeFrame (0x7F :: a :: l :: (span ++ (crcPair (a :: l :: span) ++ extra))) =
      if l.toNat = 0 then .error .lengthZero else .ok ⟨a, l, byteAt span 0, span.drop 1⟩ :=
  (decodeFrame_of_span h a _ _ extra).trans (if_neg (not_not_intro rfl))

/-- The checksum test in terms of the body, which the length byte measures, and the two bytes after it. -/
theorem decodeFrame_of_wrong_pair {body pair : Bytes} (hbody : body.length = (byteAt body 1).toNat + 2)
    (hpair : pair.length = 2) (hne : pair ≠ crcPair body) (extra : Bytes) :
    decodeFrame (0x7F :: (body ++ pair ++ extra)) = .error .checksumMismatch := by
  obtain ⟨lo, hi, rfl⟩ := List.length_eq_two.mp hpair
  match body with
  | [] => simp at hbody
  | [_] => simp at hbody
  | a :: l :: span =>
    have hspan : span.length = l.toNat := by simpa [byteAt] using hbody
    have h := decodeFrame_of_span hspan a lo hi extra
    rw [if_pos hne] at h
    simpa using h

/-- Settles O30: the clauses follow the lines of the pseudocode. -/
theorem decodeChecksInOrder : Obligations.DecodeChecksInOrder := by
  refine ⟨rfl, fun m rest h => decodeFrame_of_wrong_marker h rest, rfl, fun a => rfl,
    fun a l rest h => decodeFrame_of_short h a, ?mismatch, ?zero, ?frame⟩
  case mismatch =>
    intro a l lo hi span extra hspan hne
    rw [← crcPair_eq_wirePair] at hne
    rw [decodeFrame_of_span hspan, if_pos hne]
  case zero =>
    intro a extra
    rw [← crcPair_eq_wirePair]
    exact decodeFrame_of_crcPair (l := 0x00) (span := []) rfl a extra
  case frame =>
    intro a l cmd payload extra hlen
    have h := decodeFrame_of_crcPair (span := cmd :: payload) hlen a extra
    rw [if_neg (by omega), crcPair_eq_wirePair] at h
    simpa [byteAt] using h

/-- Settles O31: both slices have the same span and pair, and what follows plays no part. -/
theorem decodeIgnoresBytesAfterTheFrame : Obligations.DecodeIgnoresBytesAfterTheFrame := by
  intro raw extra h3 hlen
  match raw with
  | m :: a :: l :: rest =>
    by_cases hm : m = 0x7F
    · have hrest : l.toNat + 2 ≤ rest.length := by simpa [byteAt] using hlen
      obtain ⟨span, lo, hi, tail, rfl, hspan⟩ := exists_span_and_pair hrest
      simp only [List.cons_append, List.append_assoc, hm]
      rw [decodeFrame_of_span hspan, decodeFrame_of_span hspan]
    · rw [List.cons_append, decodeFrame_of_wrong_marker hm, decodeFrame_of_wrong_marker hm]

/-- Settles O33: `encodeFrame` answers up to 254 payload bytes, and what it builds decodes. -/
theorem decodeOfEncodedFrameIsTheFrame : Obligations.DecodeOfEncodedFrameIsTheFrame := by
  intro cmd addr payload h
  have henc := encodeFrame_eq_some_wireFrame h cmd addr
  exact ⟨_, henc, decodeFrame_encodeFrame henc⟩

/-! ### FRM_DEC (R108) -/

theorem effectOf_frmDec_of_ok {raw : Bytes} {f : Frame} (h : decodeFrame raw = .ok f) (s : State) :
    effectOf (.frmDec raw) s = { results := f.address :: f.length :: f.command :: f.payload } := by
  simp [effectOf, h]

theorem effectOf_frmDec_of_error {raw : Bytes} {e : FrameError} (h : decodeFrame raw = .error e) (s : State) :
    effectOf (.frmDec raw) s = { status := frameErrorStatus e } := by
  simp only [effectOf, h]

/-- Settles O32: FRM_DEC only answers; one status code for each way decode fails. -/
theorem frmDecReturnsFieldsOrStatus : Obligations.FrmDecReturnsFieldsOrStatus := by
  refine ⟨?operands, ?malformed, ?answer⟩
  case operands =>
    intro operands raw h
    obtain ⟨hlen, rfl⟩ := seq16Operand_iff.mp h
    exact decode_encode (i := .frmDec raw) (decide_eq_true hlen)
  case malformed =>
    intro operands h
    exact refuses_of_decodeOperands (o := .frmDec) (readSeq16_eq_none.mpr h)
  case answer =>
    intro raw s
    rw [exec_eq_effect]
    cases hd : decodeFrame raw with
    | ok f => rw [effectOf_frmDec_of_ok hd]; rfl
    | error e =>
      rw [effectOf_frmDec_of_error hd]
      cases e with
      | truncated => rfl
      | checksumMismatch => rfl
      | badMarker => rfl
      | lengthZero => rfl

/-! ### Flipping a bit (R110) -/

theorem xor_bit_ne (b : Byte) {k : Nat} (hk : k < 8) : b ^^^ ((1 : Byte) <<< k) ≠ b := by
  intro h
  have hbit := congrArg (fun x : Byte => x.getLsbD k) h
  simp [hk] at hbit

@[simp] theorem flipBit_length (f : Bytes) (i k : Nat) : (flipBit f i k).length = f.length := List.length_modify ..

@[simp] theorem flipBit_cons_succ (b : Byte) (f : Bytes) (i k : Nat) :
    flipBit (b :: f) (i + 1) k = b :: flipBit f i k := rfl

theorem flipBit_append_of_lt {s : Bytes} {i : Nat} (h : i < s.length) (t : Bytes) (k : Nat) :
    flipBit (s ++ t) i k = flipBit s i k ++ t := by
  induction s generalizing i with
  | nil => simp at h
  | cons b s ih =>
    cases i with
    | zero => rfl
    | succ i => rw [List.cons_append, flipBit_cons_succ, ih (by simpa using h)]; rfl

theorem flipBit_append_length_add (s t : Bytes) (i k : Nat) :
    flipBit (s ++ t) (s.length + i) k = s ++ flipBit t i k := by
  induction s with
  | nil => simp
  | cons b s ih => rw [List.length_cons, Nat.add_right_comm, List.cons_append, flipBit_cons_succ, ih]; rfl

theorem byteAt_flipBit_of_ne {i j : Nat} (h : i ≠ j) (f : Bytes) (k : Nat) : byteAt (flipBit f i k) j = byteAt f j := by
  simp [byteAt, flipBit, List.getD_eq_getElem?_getD, h]

/-- The list around the byte that a flip changes. -/
theorem exists_flipBit {f : Bytes} {i : Nat} (h : i < f.length) (k : Nat) :
    ∃ s b u, f = s ++ b :: u ∧ flipBit f i k = s ++ (b ^^^ ((1 : Byte) <<< k)) :: u := by
  obtain ⟨s, b, u, hf, -, hflip⟩ := List.exists_of_modify (fun b : Byte => b ^^^ ((1 : Byte) <<< k)) h
  exact ⟨s, b, u, hf, hflip⟩

theorem flipBit_ne {f : Bytes} {i k : Nat} (h : i < f.length) (hk : k < 8) : flipBit f i k ≠ f := by
  obtain ⟨s, b, u, rfl, hflip⟩ := exists_flipBit h k
  rw [hflip]
  simpa using xor_bit_ne b hk

/-- A single-bit error changes the checksum: the CRC step is injective in its byte and in its register. -/
theorem crc16_flipBit_ne {f : Bytes} {i k : Nat} (h : i < f.length) (hk : k < 8) : crc16 (flipBit f i k) ≠ crc16 f := by
  obtain ⟨s, b, u, rfl, hflip⟩ := exists_flipBit h k
  rw [hflip]
  exact crc16_ne_of_one_byte s u (xor_bit_ne b hk)

/-! ### A flipped frame (R110) -/

/-- A flip in the marker. -/
theorem decodeFrame_flip_marker (rest : Bytes) {k : Nat} (hk : k < 8) :
    decodeFrame (flipBit (0x7F :: rest) 0 k) = .error .badMarker :=
  decodeFrame_of_wrong_marker (xor_bit_ne 0x7F hk) rest

/-- A flip in the body, the length byte excepted, changes the checksum and not the bytes it is compared with. -/
theorem decodeFrame_flip_body {body : Bytes} {i k : Nat} (hbody : body.length = (byteAt body 1).toNat + 2)
    (hi : i < body.length) (hi1 : i ≠ 1) (hk : k < 8) :
    decodeFrame (0x7F :: (flipBit body i k ++ crcPair body)) = .error .checksumMismatch := by
  have hne : crcPair body ≠ crcPair (flipBit body i k) :=
    fun h => crc16_flipBit_ne hi hk (crc16_eq_of_crcPair_eq h.symm)
  have hlen : (flipBit body i k).length = (byteAt (flipBit body i k) 1).toNat + 2 := by
    rw [flipBit_length, byteAt_flipBit_of_ne hi1, hbody]
  simpa using decodeFrame_of_wrong_pair hlen (crcPair_length body) hne []

/-- A flip in the CRC pair changes the bytes that the checksum is compared with. -/
theorem decodeFrame_flip_pair {body : Bytes} {i k : Nat} (hbody : body.length = (byteAt body 1).toNat + 2)
    (hi : i < 2) (hk : k < 8) :
    decodeFrame (0x7F :: (body ++ flipBit (crcPair body) i k)) = .error .checksumMismatch := by
  have hlen : (flipBit (crcPair body) i k).length = 2 := by simp
  simpa using decodeFrame_of_wrong_pair hbody hlen (flipBit_ne (by simpa using hi) hk) []

/-- A flip that makes the length byte larger asks for more bytes than the frame has. -/
theorem decodeFrame_flip_length_grows {a l : Byte} {rest : Bytes} {k : Nat} (hrest : rest.length = l.toNat + 2)
    (h : l < l ^^^ ((1 : Byte) <<< k)) : decodeFrame (flipBit (0x7F :: a :: l :: rest) 2 k) = .error .truncated := by
  have hlt : l.toNat < (l ^^^ ((1 : Byte) <<< k)).toNat := h
  have hshort : rest.length < (l ^^^ ((1 : Byte) <<< k)).toNat + 2 := by omega
  exact decodeFrame_of_short hshort a

/-- Settles O34: by where the flipped byte stands in marker, body and CRC pair; the V-FLIP frames by evaluation. -/
theorem singleBitErrorsGiveTheStatedResults : Obligations.SingleBitErrorsGiveTheStatedResults := by
  refine ⟨?_, by decide +kernel, by decide +kernel, by decide +kernel⟩
  intro cmd addr payload f i k henc hi hk
  obtain ⟨hpayload, rfl⟩ := encodeFrame_eq_some.mp henc
  have hbody : (frameBody cmd payload addr).length = (byteAt (frameBody cmd payload addr) 1).toNat + 2 := by
    rw [frameBody_length, frameBody_lengthByte hpayload]
  refine ⟨?marker, ?covered, ?grows⟩
  case marker =>
    rintro rfl
    exact decodeFrame_flip_marker _ hk
  case covered =>
    intro hi0 hi2
    obtain ⟨j, rfl⟩ := Nat.exists_eq_succ_of_ne_zero hi0
    rw [List.cons_append, Nat.succ_eq_add_one, flipBit_cons_succ]
    by_cases hj : j < (frameBody cmd payload addr).length
    · rw [flipBit_append_of_lt hj]
      exact decodeFrame_flip_body hbody hj (by omega) hk
    · obtain ⟨p, rfl⟩ := Nat.exists_eq_add_of_le (Nat.le_of_not_lt hj)
      rw [flipBit_append_length_add]
      exact decodeFrame_flip_pair hbody (by simp at hi; omega) hk
  case grows =>
    rintro rfl hgrows
    exact decodeFrame_flip_length_grows (by simp [lengthByte_toNat hpayload]) hgrows

end Sys2Proof.Machine

/-! PROOFS. The reassembler (spec/42_reassembler.md): one byte (R130), the kinds of report (R131, R136), the slices it emits and how many
(R138, R132), RX_PUSH and RX_FLUSH (R132, R133), and a stream pushed in chunks against the source's batch algorithm (R134). -/

namespace Sys2Proof.Machine

/-! ### One byte (R130) -/

/-- The report that R130 makes of an emitted slice. -/
def reportOf (sl : Bytes) : Report := ⟨classify (decodeFrame sl), sl⟩

@[simp] theorem reportOf_bytes (sl : Bytes) : (reportOf sl).bytes = sl := rfl

@[simp] theorem reportOf_kind (sl : Bytes) : (reportOf sl).kind = classify (decodeFrame sl) := rfl

theorem rxByte_of_completes {buf : Bytes} {b : Byte} (h : completesSlice (buf ++ [b]) = true) :
    rxByte buf b = ([], [reportOf (buf ++ [b])]) := if_pos h

theorem rxByte_of_not_completes {buf : Bytes} {b : Byte} (h : ¬ completesSlice (buf ++ [b]) = true) :
    rxByte buf b = (buf ++ [b], []) := if_neg h

/-- Settles O38. -/
theorem rxByteEmitsAtTheSpan : Obligations.RxByteEmitsAtTheSpan := fun _ _ =>
  ⟨fun h3 hlen => rxByte_of_completes (completesSlice_iff.mpr ⟨h3, hlen⟩),
    fun h => rxByte_of_not_completes (h ∘ completesSlice_iff.mp)⟩

/-! ### The kinds of report (R131, R136) -/

theorem reportEvent_eq_unrecognizedData {k : Status} :
    k.reportEvent = some .unrecognizedData ↔ (k = .badMarker ∨ k = .lengthZero) := by
  cases k <;> simp [Status.reportEvent]

/-- Settles O39. -/
theorem reportKindsFollowDecode : Obligations.ReportKindsFollowDecode :=
  ⟨fun _ => ⟨rfl, rfl⟩, ⟨rfl, rfl⟩, ⟨rfl, rfl⟩, ⟨rfl, rfl⟩, fun _ => reportEvent_eq_unrecognizedData⟩

/-! ### The emitted slices (R138) -/

/-- A report comes from a slice of its declared length, classified by decode. -/
theorem report_of_mem_reassemble {buf data : Bytes} {r : Report} (h : r ∈ (reassemble buf data).2) :
    completesSlice r.bytes = true ∧ r = reportOf r.bytes := by
  induction data generalizing buf with
  | nil => simp at h
  | cons b data ih =>
    rw [reassemble_cons, List.mem_append] at h
    rcases h with hnow | hlater
    · by_cases hc : completesSlice (buf ++ [b]) = true
      · rw [rxByte_of_completes hc, List.mem_singleton] at hnow
        subst hnow
        exact ⟨hc, rfl⟩
      · simp [rxByte_of_not_completes hc] at hnow
    · exact ih hlater

/-- A slice of its declared length passes both length checks of decode (R103). -/
theorem decodeFrame_ne_truncated {sl : Bytes} (h : completesSlice sl = true) : decodeFrame sl ≠ .error .truncated := by
  obtain ⟨h3, hlen⟩ := completesSlice_iff.mp h
  match sl with
  | m :: a :: l :: rest =>
    by_cases hm : m = 0x7F
    · have hrest : l.toNat + 2 ≤ rest.length := by simpa [byteAt] using hlen.ge
      obtain ⟨span, lo, hi, extra, rfl, hspan⟩ := exists_span_and_pair hrest
      rw [hm, decodeFrame_of_span hspan]
      split
      · simp
      · split <;> simp
    · rw [decodeFrame_of_wrong_marker hm]
      simp

/-- Without TRUNCATED, `classify` gives one of the four codes of R131. -/
theorem classify_code_mem {d : Except FrameError Frame} (h : d ≠ .error .truncated) :
    (classify d).code ∈ ([0x00, 0x02, 0x03, 0x04] : Bytes) := by
  match d with
  | .ok _ => exact .head _
  | .error .checksumMismatch => exact .tail _ (.head _)
  | .error .badMarker => exact .tail _ (.tail _ (.head _))
  | .error .lengthZero => exact .tail _ (.tail _ (.tail _ (.head _)))
  | .error .truncated => exact absurd rfl h

/-- Settles O44: the declared length is what makes a slice complete, and it rules TRUNCATED out. -/
theorem emittedSlicesAreNeverShort : Obligations.EmittedSlicesAreNeverShort := by
  intro buf data r hr
  obtain ⟨hc, hrep⟩ := report_of_mem_reassemble hr
  obtain ⟨h3, hlen⟩ := completesSlice_iff.mp hc
  have hkind : r.kind = classify (decodeFrame r.bytes) := congrArg Report.kind hrep
  have hne := decodeFrame_ne_truncated hc
  exact ⟨h3, hlen, hkind, hne, hkind ▸ classify_code_mem hne⟩

/-! ### The number of reports (R132) -/

theorem five_le_length_of_completes {sl : Bytes} (h : completesSlice sl = true) : 5 ≤ sl.length := by
  obtain ⟨-, hlen⟩ := completesSlice_iff.mp h
  omega

/-- Every report takes at least five of the bytes held and read. -/
theorem five_mul_reports_le (buf data : Bytes) : 5 * (reassemble buf data).2.length ≤ buf.length + data.length := by
  have hslices : (reassemble buf data).2.length * 5 ≤ ((reassemble buf data).2.flatMap Report.bytes).length := by
    rw [List.length_flatMap, ← List.length_map (f := fun r : Report => r.bytes.length)]
    refine List.card_nsmul_le_sum (M := Nat) _ 5 fun n hn => ?_
    obtain ⟨r, hr, rfl⟩ := List.mem_map.mp hn
    exact five_le_length_of_completes (report_of_mem_reassemble hr).1
  have hbytes := congrArg List.length (reassemble_keeps_bytes buf data)
  simp only [List.length_append] at hbytes
  omega

/-- Whatever is held, the first report takes at least one of the bytes read, and each later one five: it starts from an empty buffer. -/
theorem five_mul_reports_le_of_data (buf data : Bytes) : 5 * (reassemble buf data).2.length ≤ data.length + 4 := by
  induction data generalizing buf with
  | nil => simp
  | cons b data ih =>
    rw [reassemble_cons, List.length_append, List.length_cons]
    by_cases hc : completesSlice (buf ++ [b]) = true
    · have hrest := five_mul_reports_le [] data
      simp only [rxByte_of_completes hc, List.length_cons, List.length_nil] at hrest ⊢
      omega
    · have hrest := ih (buf ++ [b])
      simp only [rxByte_of_not_completes hc, List.length_nil]
      omega

/-- Settles O46: (65535 + 4) / 5 = 13107. -/
theorem reportCountFitsItsField : Obligations.ReportCountFitsItsField := by
  intro buf data hdata
  have hcount := five_mul_reports_le_of_data buf data
  omega

/-! ### RX_PUSH and RX_FLUSH (R132, R133) -/

/-- `reassemble` is the fold of `rxByte` over the data, with the reports added at the end. -/
theorem foldl_rxByte_eq_reassemble (data buf : Bytes) (reports : List Report) :
    data.foldl (fun p b => ((rxByte p.1 b).1, p.2 ++ (rxByte p.1 b).2)) (buf, reports) =
      ((reassemble buf data).1, reports ++ (reassemble buf data).2) := by
  induction data generalizing buf reports with
  | nil => simp
  | cons b data ih => rw [List.foldl_cons, ih, reassemble_cons, List.append_assoc]

/-- A report record, with its length as the wire's count (spec/30_encoding.md R75). -/
theorem record_eq (r : Report) : r.record = r.kind.code :: (wireCount r.bytes.length ++ r.bytes) := by
  rw [Report.record, count16_eq_wireCount, List.cons_append]

/-- The results of an RX_PUSH with both counts as the wire's. -/
theorem reportResults_eq (reports : List Report) :
    reportResults reports = wireCount reports.length ++
      reports.flatMap fun r => r.kind.code :: (wireCount r.bytes.length ++ r.bytes) := by
  rw [reportResults, count16_eq_wireCount, funext record_eq]

/-- Settles O40. -/
theorem rxPushReportsEverySlice : Obligations.RxPushReportsEverySlice := by
  refine ⟨fun operands data h => ?_, fun operands h => ?_, fun data s buf reports h => ?_⟩
  · obtain ⟨hlen, rfl⟩ := seq16Operand_iff.mp h
    exact decode_encode (i := .rxPush data) (decide_eq_true hlen)
  · exact refuses_of_decodeOperands (o := .rxPush) (readSeq16_eq_none.mpr h)
  · rw [foldl_rxByte_eq_reassemble, List.nil_append, Prod.mk.injEq] at h
    obtain ⟨rfl, rfl⟩ := h
    rw [← reportResults_eq]
    exact returnOk_eq (reportResults (reassemble s.rxBuf data).2) (s.setRxBuf (reassemble s.rxBuf data).1)

/-- Settles O41. -/
theorem rxFlushReturnsTheRetainedBytes : Obligations.RxFlushReturnsTheRetainedBytes := by
  refine ⟨decode_encode (i := .rxFlush) rfl, fun operands h => ?_, fun s => ?_⟩
  · exact refuses_of_decodeOperands (o := .rxFlush) (readNone_eq_none.mpr h)
  · rw [← count16_eq_wireCount]
    exact returnOk_eq (count16 s.rxBuf.length ++ s.rxBuf) (s.setRxBuf [])

/-! ### A stream pushed in chunks (R134) -/

/-- The state after the pushes of the chunks. -/
def pushAll (chunks : List Bytes) (s : State) : State := stateAfter (chunks.map .rxPush) s

/-- What ties `pushAll` to the model. -/
theorem execAll_rxPush (chunks : List Bytes) (s : State) : execAll (chunks.map .rxPush) s = .next (pushAll chunks s) :=
  execAll_eq_stateAfter _ s

theorem exec_rxPush (data : Bytes) (s : State) : exec (.rxPush data) s = .next (pushAll [data] s) := exec_eq_effect _ s

@[simp] theorem pushAll_nil (s : State) : pushAll [] s = s := rfl

theorem pushAll_cons (data : Bytes) (chunks : List Bytes) (s : State) :
    pushAll (data :: chunks) s = pushAll chunks ((effectOf (.rxPush data) s).apply s) := rfl

/-- The retained bytes after the pushes are those of the whole stream. -/
theorem pushAll_rxBuf (chunks : List Bytes) (s : State) : (pushAll chunks s).rxBuf = (reassemble s.rxBuf chunks.flatten).1 := by
  induction chunks generalizing s with
  | nil => rfl
  | cons data chunks ih => rw [pushAll_cons, ih, List.flatten_cons, reassemble_append]; rfl

/-- The records in the response to one push. -/
theorem reportStream_rxPush (data : Bytes) (s : State) (rs : List Response) :
    reportStream ((effectOf (.rxPush data) s).response s :: rs) =
      (reassemble s.rxBuf data).2.flatMap Report.record ++ reportStream rs := rfl

/-- The pushes add responses whose records, one after another, are those of the whole stream. -/
theorem pushAll_rsp (chunks : List Bytes) (s : State) :
    ∃ rs, (pushAll chunks s).rsp = s.rsp ++ rs ∧
      reportStream rs = (reassemble s.rxBuf chunks.flatten).2.flatMap Report.record := by
  induction chunks generalizing s with
  | nil => exact ⟨[], by simp, rfl⟩
  | cons data chunks ih =>
    obtain ⟨rs, hrsp, hrecords⟩ := ih ((effectOf (.rxPush data) s).apply s)
    refine ⟨(effectOf (.rxPush data) s).response s :: rs, ?_, ?_⟩
    · rw [pushAll_cons, hrsp, Effect.apply_rsp, List.append_assoc, List.singleton_append]
    · rw [reportStream_rxPush, hrecords, List.flatten_cons, reassemble_append, List.flatMap_append]; rfl

theorem reportStream_pushAll (chunks : List Bytes) (s : State) :
    reportStream ((pushAll chunks s).rsp.drop s.rsp.length) =
      (reassemble s.rxBuf chunks.flatten).2.flatMap Report.record := by
  obtain ⟨rs, hrsp, hrecords⟩ := pushAll_rsp chunks s
  rw [hrsp, List.drop_left, hrecords]

/-- Settles O43: both sides are the reassembly of the whole stream. -/
theorem chunkingDoesNotMatter : Obligations.ChunkingDoesNotMatter := by
  intro chunks s
  refine ⟨_, _, execAll_rxPush chunks s, exec_rxPush chunks.flatten s, ?_, ?_⟩
  · rw [pushAll_rxBuf, pushAll_rxBuf, List.flatten_singleton]
  · rw [reportStream_pushAll, reportStream_pushAll, List.flatten_singleton]

/-! ### The source's batch form (R134) -/

/-- Bytes are at rest where the test of R134's loop fails. -/
theorem rxAtRest_iff {buf : Bytes} : rxAtRest buf ↔ ¬ (3 ≤ buf.length ∧ (byteAt buf 2).toNat + 5 ≤ buf.length) := by
  rw [rxAtRest]; omega

theorem rxAtRest_not_completes {buf : Bytes} (h : rxAtRest buf) : ¬ completesSlice buf = true := by
  rw [completesSlice_iff]
  rintro ⟨h3, hlen⟩
  exact rxAtRest_iff.mp h ⟨h3, hlen.ge⟩

/-- Bytes that fall short of the span of what they begin are at rest: so is a slice before its last byte. -/
theorem rxAtRest_of_append_short {buf rest : Bytes} (h : buf.length < (byteAt (buf ++ rest) 2).toNat + 5) : rxAtRest buf := by
  by_cases h3 : buf.length < 3
  · exact .inl h3
  · rw [byteAt_append_of_lt (by omega)] at h
    exact .inr h

theorem rxAtRest_of_append {buf rest : Bytes} (h : rxAtRest (buf ++ rest)) : rxAtRest buf := by
  rcases h with hshort | hspan
  · exact .inl (by rw [List.length_append] at hshort; omega)
  · exact rxAtRest_of_append_short (rest := rest) (by rw [List.length_append] at hspan; omega)

/-- Bytes at rest pass through `rx_byte` without a report, and are held. -/
theorem reassemble_of_atRest {buf : Bytes} (h : rxAtRest buf) : reassemble [] buf = (buf, []) := by
  induction buf using List.reverseRecOn with
  | nil => rfl
  | append_singleton buf b ih =>
    rw [reassemble_append, ih (rxAtRest_of_append h), reassemble_cons, rxByte_of_not_completes (rxAtRest_not_completes h)]
    rfl

/-- The bytes of one slice make one report, with the last of them. -/
theorem reassemble_of_completes {sl : Bytes} (h : completesSlice sl = true) : reassemble [] sl = ([], [reportOf sl]) := by
  obtain ⟨-, hlen⟩ := completesSlice_iff.mp h
  rcases List.eq_nil_or_concat' sl with rfl | ⟨buf, b, rfl⟩
  · cases h
  · have hrest : rxAtRest buf := rxAtRest_of_append_short (rest := [b]) (by rw [← hlen]; simp)
    rw [reassemble_append, reassemble_of_atRest hrest, reassemble_cons, rxByte_of_completes h]
    rfl

/-- A turn of R134's loop ends at bytes at rest, or cuts one slice off. -/
theorem batchLoop_cases (n : Nat) (buf : Bytes) :
    (rxAtRest buf ∧ batchLoop (n + 1) buf = ([], buf)) ∨
    ∃ sl rest, buf = sl ++ rest ∧ completesSlice sl = true ∧
      batchLoop (n + 1) buf = (sl :: (batchLoop n rest).1, (batchLoop n rest).2) := by
  by_cases h : 3 ≤ buf.length ∧ (byteAt buf 2).toNat + 5 ≤ buf.length
  · right
    refine ⟨_, _, (List.take_append_drop ((byteAt buf 2).toNat + 5) buf).symm, ?_, if_pos h⟩
    have hlen : (buf.take ((byteAt buf 2).toNat + 5)).length = (byteAt buf 2).toNat + 5 := by
      rw [List.length_take]; omega
    have hbyte : byteAt (buf.take ((byteAt buf 2).toNat + 5)) 2 = byteAt buf 2 := by
      rw [← byteAt_append_of_lt (extra := buf.drop ((byteAt buf 2).toNat + 5)) (by omega), List.take_append_drop]
    rw [completesSlice_iff, hlen, hbyte]
    omega
  · exact .inl ⟨rxAtRest_iff.mpr h, if_neg h⟩

/-- The byte machine and the loop agree, as long as the loop has a turn for every byte. -/
theorem reassemble_eq_batchLoop {n : Nat} {buf : Bytes} (h : buf.length ≤ n) :
    reassemble [] buf = ((batchLoop n buf).2, (batchLoop n buf).1.map reportOf) := by
  induction n generalizing buf with
  | zero =>
    obtain rfl : buf = [] := List.eq_nil_of_length_eq_zero (by omega)
    rfl
  | succ n ih =>
    rcases batchLoop_cases n buf with ⟨hrest, he⟩ | ⟨sl, rest, rfl, hsl, he⟩
    · rw [reassemble_of_atRest hrest, he, List.map_nil]
    · have hfive := five_le_length_of_completes hsl
      have hle : rest.length ≤ n := by rw [List.length_append] at h; omega
      rw [reassemble_append, reassemble_of_completes hsl, ih hle, he]
      rfl

theorem reassemble_eq_batch (buf : Bytes) : reassemble [] buf = ((batch buf).2, (batch buf).1.map reportOf) :=
  reassemble_eq_batchLoop le_rfl

/-- Settles O42: the pushes are the reassembly of the whole stream, which from an empty buffer is the batch. -/
theorem pushesGiveTheBatchSlices : Obligations.PushesGiveTheBatchSlices := by
  intro chunks s hs
  refine ⟨_, execAll_rxPush chunks s, ?_, ?_⟩
  · rw [pushAll_rxBuf, hs, reassemble_eq_batch]
  · rw [reportStream_pushAll, hs, reassemble_eq_batch, List.flatMap_map]
    simp only [record_eq, reportOf_kind, reportOf_bytes]

end Sys2Proof.Machine

/-! PROOFS. The sequence counter (spec/43_sequence.md): the address byte (R160), SEQ_NEXT and SEQ_PEEK (R161, R162), and the strict
alternation of the address bytes over a run (R163). -/

namespace Sys2Proof.Machine

/-! ### The address byte (R160) -/

/-- A legal flag has only bit 7 and a device id only bits 6:0, so the two occupy disjoint bits. -/
theorem legalFlag_and_devId {v : Byte} (h : v = 0x80 ∨ v = 0x00) (d : BitVec 7) : v &&& d.setWidth 8 = 0 := by
  rcases h with rfl | rfl
  · change BitVec.twoPow 8 7 &&& _ = 0
    rw [BitVec.twoPow_and]
    simp
  · simp

/-- On disjoint bits, or and xor agree. -/
theorem or_eq_xor_of_disjoint {x y : Byte} (h : x &&& y = 0) : x ||| y = x ^^^ y := by
  ext k hk
  have hbit : (x[k] && y[k]) = false := by rw [← BitVec.getElem_and, h]; simp
  rw [BitVec.getElem_or, BitVec.getElem_xor]
  cases hx : x[k] with
  | false => simp
  | true => simpa [hx] using hbit

/-- Bit 7 of an address byte is the flag's, whatever the device id. -/
theorem msb_or_devId (v : Byte) (d : BitVec 7) : (v ||| d.setWidth 8).msb = v.msb := by
  simp [BitVec.msb_setWidth]

/-- A legal flag leaves bits 6:0 of an address byte to the device id. -/
theorem setWidth_legalFlag {v : Byte} (h : v = 0x80 ∨ v = 0x00) : v.setWidth 7 = 0 := by
  rcases h with rfl | rfl
  · rfl
  · rfl

/-- Settles O16: the flag and the device id occupy disjoint bits. -/
theorem addressByteIsFlagAndDeviceId : Obligations.AddressByteIsFlagAndDeviceId := by
  intro s hflag
  have hdisjoint : s.seqFlag &&& s.devId.setWidth 8 = 0 := legalFlag_and_devId hflag s.devId
  refine ⟨rfl, or_eq_xor_of_disjoint hdisjoint, ?_, msb_or_devId _ _, ?_⟩
  · exact (BitVec.add_eq_or_of_and_eq_zero _ _ hdisjoint).symm
  · rw [seqAddr, BitVec.setWidth_or, setWidth_legalFlag hflag]
    simp

/-! ### The two counter transactions (R161, R162) -/

/-- Settles O17. -/
theorem seqNextTakesAnAddressAndToggles : Obligations.SeqNextTakesAnAddressAndToggles := by
  refine ⟨decode_encode (i := .seqNext) rfl, fun operands h => ?_, fun s => ?_⟩
  · exact refuses_of_decodeOperands (o := .seqNext) (readNone_eq_none.mpr h)
  · exact returnOk_eq [seqAddr s] (toggleFlag s)

/-- Settles O18. -/
theorem seqPeekReadsTheFlag : Obligations.SeqPeekReadsTheFlag := by
  refine ⟨decode_encode (i := .seqPeek) rfl, fun operands h => ?_, fun s => ?_⟩
  · exact refuses_of_decodeOperands (o := .seqPeek) (readNone_eq_none.mpr h)
  · exact returnOk_eq [s.seqFlag] s

/-! ### What a transaction does to the counter -/

/-- A transaction that takes an address byte answers the counter's and toggles the flag. -/
theorem effectOf_of_takesAddress {i : Instr} (h : takesAddress i = true) (s : State) :
    (effectOf i s).seqFlag = some (s.seqFlag ^^^ 0x80) ∧ (effectOf i s).results = [seqAddr s] := by
  cases i with
  | seqNext => exact ⟨rfl, rfl⟩
  | frmSend cmd payload =>
    have hframe := encodeFrame_eq_some_wireFrame (of_decide_eq_true h) cmd (seqAddr s)
    simp [effectOf, hframe]
  | _ => cases h

/-- Of the other transactions only SESS_OPEN writes the flag. -/
theorem effectOf_seqFlag_of_not_takesAddress {i : Instr} (h : ¬ takesAddress i = true) (ho : i.opcode ≠ .sessOpen) (s : State) :
    (effectOf i s).seqFlag = none := by
  cases i with
  | sessOpen initSeq devId => exact absurd rfl ho
  | seqNext => exact absurd rfl h
  | frmSend cmd payload =>
    have hlong : 254 < payload.length := not_le.mp fun hle => h (decide_eq_true hle)
    simp [effectOf, encodeFrame_eq_none.mpr hlong]
  | _ => exact (effectOf_writesWithin _ s).seqFlag (by simp [Instr.opcode])

/-- The newest response after an effect carries the effect's results. -/
theorem newestAddress_apply (e : Effect) (s : State) : newestAddress (e.apply s) = e.results.take 1 := by
  simp [newestAddress]

/-- The trace of a run, with the state after its first transaction. -/
theorem addressTrace_cons (i : Instr) (is : List Instr) (s : State) :
    addressTrace (i :: is) s =
      (if takesAddress i then (effectOf i s).results.take 1 else []) ++ addressTrace is ((effectOf i s).apply s) := by
  rw [addressTrace, exec_eq_effect, ← newestAddress_apply _ s]

/-! ### Strict alternation (R163) -/

/-- The flag after `n` toggles. -/
def flagAfter (v : Byte) (n : Nat) : Byte := if n % 2 = 0 then v else v ^^^ 0x80

theorem flagAfter_toggled (v : Byte) (n : Nat) : flagAfter (v ^^^ 0x80) n = flagAfter v (n + 1) := by
  rcases Nat.mod_two_eq_zero_or_one n with h | h
  · simp [flagAfter, h, Nat.add_mod]
  · simp [flagAfter, h, Nat.add_mod]

theorem flagAfter_msb (v : Byte) (n : Nat) : (flagAfter v n).msb = if n % 2 = 0 then v.msb else !v.msb := by
  rw [flagAfter]
  split
  · rfl
  · rw [BitVec.msb_xor, show (0x80 : Byte).msb = true from rfl, Bool.xor_true]

/-- The address byte of the counter after `n` toggles. -/
def addressAfter (s : State) (n : Nat) : Byte := flagAfter s.seqFlag n ||| s.devId.setWidth 8

@[simp] theorem addressAfter_zero (s : State) : addressAfter s 0 = seqAddr s := rfl

/-- What ties `addressAfter` to the model's toggle. -/
theorem addressAfter_toggleFlag (s : State) (n : Nat) : addressAfter (toggleFlag s) n = addressAfter s (n + 1) := by
  rw [addressAfter, addressAfter, toggleFlag_seqFlag, toggleFlag_devId, flagAfter_toggled]

/-- The address bytes depend on the flag and on the device id alone. -/
theorem addressAfter_congr {s t : State} (hflag : s.seqFlag = t.seqFlag) (hdev : s.devId = t.devId) :
    addressAfter s = addressAfter t := by
  funext n
  rw [addressAfter, addressAfter, hflag, hdev]

/-- A run without SESS_OPEN takes the counter's address bytes one after another, whatever else runs in between. -/
theorem addressTrace_eq {is : List Instr} (h : ∀ i ∈ is, i.opcode ≠ .sessOpen) (s : State) :
    addressTrace is s = (List.range (is.countP takesAddress)).map (addressAfter s) := by
  induction is generalizing s with
  | nil => rfl
  | cons i is ih =>
    obtain ⟨hi, his⟩ := List.forall_mem_cons.mp h
    have hdev : ((effectOf i s).apply s).devId = s.devId := by simp [(effectOf_writesWithin i s).devId hi]
    rw [addressTrace_cons, ih his]
    by_cases ht : takesAddress i = true
    · obtain ⟨hflag, hresults⟩ := effectOf_of_takesAddress ht s
      have hnext : addressAfter ((effectOf i s).apply s) = addressAfter (toggleFlag s) :=
        addressAfter_congr (by simp [hflag]) hdev
      rw [if_pos ht, hresults, hnext, List.countP_cons_of_pos ht, List.range_succ_eq_map]
      simp [Function.comp_def, addressAfter_toggleFlag]
    · have hsame : addressAfter ((effectOf i s).apply s) = addressAfter s :=
        addressAfter_congr (by simp [effectOf_seqFlag_of_not_takesAddress ht hi]) hdev
      rw [if_neg ht, hsame, List.countP_cons_of_neg ht, List.nil_append]

/-- Settles O19: the n-th address byte of the run is the counter's after `n` toggles. -/
theorem addressBytesAlternate : Obligations.AddressBytesAlternate := by
  intro is s his
  have hopcode : ∀ i ∈ is, i.opcode ≠ .sessOpen := by
    intro i hi ho
    cases i with
    | sessOpen initSeq devId => exact his initSeq devId hi
    | _ => cases ho
  have hnth {n : Nat} {a : Byte} (ha : (addressTrace is s)[n]? = some a) : a = addressAfter s n := by
    obtain ⟨-, rfl⟩ := List.getElem?_eq_some_iff.mp ha
    simp [addressTrace_eq hopcode]
  refine ⟨?_, fun n a ha => ?_, fun hflag hdev n a ha => ?_⟩
  · rw [addressTrace_eq hopcode, List.length_map, List.length_range]
  · rw [hnth ha, addressAfter, msb_or_devId, flagAfter_msb]
  · rw [hnth ha, addressAfter, hflag, hdev, flagAfter]
    split
    · rfl
    · rfl

end Sys2Proof.Machine

/-! PROOFS. Session and transmit operations, illegal transactions (spec/44_session_transmit.md): bytes that are no transaction (R183,
R184), SESS_OPEN (R180), FRM_SEND (R181), and FRM_SEND as SEQ_NEXT and then FRM_ENC (R182). -/

namespace Sys2Proof.Machine

/-! ### Bytes that are no transaction (R183, R184) -/

/-- The opcode is checked before the length, so what follows a reserved opcode plays no part. -/
theorem decode_of_reserved {op : Byte} (h : op.toNat ∉ mapOpcodes) (operands : Bytes) :
    decode (op :: operands) = .error .illegalOp := by
  have hnone : opcodeOf op = none := opcodeOf_eq_none fun o ho => h (mem_mapOpcodes_iff.mpr ⟨o, ho⟩)
  simp only [decode, hnone]

/-- Settles O6: the reserved ranges hold no opcode of the map. -/
theorem reservedOpcodesAreIllegalOp : Obligations.ReservedOpcodesAreIllegalOp := by
  intro op operands h
  have hreserved : op.toNat ∉ mapOpcodes := by
    simp only [mapOpcodes, List.mem_cons, List.not_mem_nil, or_false]
    omega
  exact refuses_of_decode_error (decode_of_reserved hreserved operands)

/-- A length other than the map's leaves the operand reader without an answer. -/
theorem decodeOperands_of_wrong_length {o : Opcode} {operands : Bytes}
    (h : mapLength (opcodeByte o :: operands) ≠ some (operands.length + 1)) : decodeOperands o operands = none := by
  refine Option.eq_none_iff_forall_ne_some.mpr fun i hi => h ?_
  exact (wellFormedExactlyAtTheMapLength _).mp ⟨i, decode_eq_ok.mpr ⟨o, operands, rfl, hi⟩⟩

/-- Settles O7: the empty transaction has no opcode, and the operand reader of a legal opcode answers at the map's length only. -/
theorem wrongLengthIsMalformed : Obligations.WrongLengthIsMalformed := by
  rintro t (rfl | ⟨op, operands, rfl, hop, hlen⟩)
  · exact refuses_of_decode_error (e := .malformed) rfl
  · obtain ⟨o, rfl⟩ := mem_mapOpcodes_iff.mp hop
    exact refuses_of_decodeOperands (decodeOperands_of_wrong_length hlen)

/-! ### SESS_OPEN (R180) -/

theorem readU8U8_eq_none {k : Byte → Byte → Instr} {t : Bytes} : readU8U8 k t = none ↔ t.length ≠ 2 := by
  match t with
  | [] => simp [readU8U8]
  | [_] => simp [readU8U8]
  | [_, _] => simp [readU8U8]
  | _ :: _ :: _ :: _ => simp [readU8U8]

theorem legalDevId_iff {v : Byte} : legalDevId v = true ↔ v.toNat ≤ 0x7F := decide_eq_true_iff

theorem legalSession_iff {initSeq devId : Byte} :
    legalSession initSeq devId = true ↔ (initSeq = 0x80 ∨ initSeq = 0x00) ∧ devId.toNat ≤ 0x7F := by
  rw [legalSession, Bool.and_eq_true, legalFlag_iff, legalDevId_iff]

theorem devIdOf_eq_ofNat (v : Byte) : devIdOf v = BitVec.ofNat 7 v.toNat := rfl

/-- Settles O15: `legalSession` decides between the two outcomes. -/
theorem sessOpenStartsASession : Obligations.SessOpenStartsASession := by
  refine ⟨fun initSeq devId => decode_encode (i := .sessOpen initSeq devId) rfl, ?malformed, ?legal, ?illegal⟩
  case malformed =>
    intro operands h
    exact refuses_of_decodeOperands (o := .sessOpen) (readU8U8_eq_none.mpr h)
  case legal =>
    intro initSeq devId s hflag hdev
    rw [exec_sessOpen_of_legal (legalSession_iff.mpr ⟨hflag, hdev⟩), devIdOf_eq_ofNat]
    rfl
  case illegal =>
    intro initSeq devId s h
    have hillegal : legalSession initSeq devId = false := by
      rw [Bool.eq_false_iff, ne_eq, legalSession_iff, not_and_or, not_or, not_le]
      exact h
    rw [exec_sessOpen_of_illegal hillegal]
    rfl

/-! ### FRM_SEND (R181) -/

/-- Operand bytes are refused exactly when they are not one byte and a `seq8` (R68). -/
theorem readU8Seq8_eq_none {k : Byte → Bytes → Instr} {t : Bytes} :
    readU8Seq8 k t = none ↔ ∀ (a : Byte) (tail data : Bytes), t = a :: tail → ¬ Seq8Operand tail data := by
  rw [Option.eq_none_iff_forall_ne_some]
  constructor
  · rintro h a _ data rfl ⟨n, rfl, hlen⟩
    exact h (k a data) (readU8Seq8_eq_some.mpr ⟨a, n, data, rfl, hlen, rfl⟩)
  · intro h i hi
    obtain ⟨a, n, data, rfl, hlen, -⟩ := readU8Seq8_eq_some.mp hi
    exact h a _ data rfl ⟨n, rfl, hlen⟩

theorem effectOf_frmSend_of_some {cmd : Byte} {payload frame : Bytes} {s : State}
    (h : encodeFrame cmd payload (seqAddr s) = some frame) :
    effectOf (.frmSend cmd payload) s =
      { seqFlag := some (s.seqFlag ^^^ 0x80), frame := some frame, results := [seqAddr s] } := by
  simp only [effectOf, h]

theorem effectOf_frmSend_of_none {cmd : Byte} {payload : Bytes} {s : State} (h : encodeFrame cmd payload (seqAddr s) = none) :
    effectOf (.frmSend cmd payload) s = { status := .payloadTooLong } := by
  simp only [effectOf, h]

/-- Settles O35: the two outcomes are those of `encodeFrame` with the counter's address byte. -/
theorem frmSendTransmitsAndToggles : Obligations.FrmSendTransmitsAndToggles := by
  refine ⟨?operands, ?malformed, ?frame, ?tooLong⟩
  case operands =>
    intro cmd operands payload h
    obtain ⟨hlen, rfl⟩ := seq8Operand_iff.mp h
    exact decode_encode (i := .frmSend cmd payload) (decide_eq_true hlen)
  case malformed =>
    intro operands h
    exact refuses_of_decodeOperands (o := .frmSend) (readU8Seq8_eq_none.mpr h)
  case frame =>
    intro cmd payload s h
    rw [exec_eq_effect, effectOf_frmSend_of_some (encodeFrame_eq_some_wireFrame h cmd (seqAddr s))]
    rfl
  case tooLong =>
    intro cmd payload s h
    rw [exec_eq_effect, effectOf_frmSend_of_none (encodeFrame_eq_none.mpr (by omega))]
    rfl

/-! ### FRM_SEND is SEQ_NEXT and then FRM_ENC (R182) -/

/-- Settles O36: the three transactions do what O17, O29 and O35 say, and the address byte and so the frame are the same. -/
theorem frmSendIsSeqNextThenFrmEnc : Obligations.FrmSendIsSeqNextThenFrmEnc := by
  intro cmd payload s h
  obtain ⟨-, -, hseqNext⟩ := seqNextTakesAnAddressAndToggles
  obtain ⟨-, -, hfrmEnc, -⟩ := frmEncReturnsTheFrame
  obtain ⟨-, -, hfrmSend, -⟩ := frmSendTransmitsAndToggles
  exact ⟨_, _, _, seqAddr s, wireFrame cmd payload (seqAddr s), hseqNext s, rfl, hfrmEnc cmd _ payload _ h, rfl,
    hfrmSend cmd payload s h, rfl, rfl, rfl⟩

end Sys2Proof.Machine

/-! PROOFS. Statuses and exceptions (spec/60_exceptions.md): no state stops the block (R202), and a transaction with a status other than
OK writes nothing (R203). -/

namespace Sys2Proof.Machine

/-! ### No state stops the block (R202) -/

/-- Settles O5: waiting, a reset and a rejection answer a next state by their definitions, a transaction by its effect. -/
theorem everyStepHasANextState : Obligations.EveryStepHasANextState := by
  intro s
  rcases step_cases s with
    ⟨-, hwait⟩ | ⟨_, -, hreset⟩ | ⟨_, _, _, e, -, -, hrejected⟩ | ⟨_, _, _, i, -, -, hperformed⟩
  · exact ⟨_, hwait⟩
  · exact ⟨_, hreset⟩
  · exact ⟨_, hrejected.trans (retire_eq_next.mpr ⟨_, raise_eq _ s, rfl⟩)⟩
  · exact ⟨_, hperformed.trans (retire_eq_next.mpr ⟨_, exec_eq_effect i s, rfl⟩)⟩

/-! ### A transaction that fails writes nothing (R203) -/

/-- A step that performs a transaction answers OK, or it adds a response and takes the transaction off the port, and no more. -/
theorem step_transaction_ok_or_only_responds {s u : State} {a : Agent} {t : Bytes} {rest : List Input}
    (hp : s.pending = .transaction a t :: rest) (hstep : step s = .next u) :
    (∃ dest results, u.rsp = s.rsp ++ [⟨dest, 0x00 :: results⟩]) ∨ u = { s with pending := rest, rsp := u.rsp } := by
  rw [step_transaction hp] at hstep
  obtain ⟨v, hv, rfl⟩ := retire_eq_next.mp hstep
  rcases perform_cases t s with ⟨results, w, hok, -, hrsp⟩ | ⟨st, -, hraise⟩
  · obtain rfl := returnOk_eq_next.mp (hok.symm.trans hv)
    exact .inl ⟨w.recipient, results, by rw [← hrsp]; rfl⟩
  · obtain rfl := raise_eq_next.mp (hraise.symm.trans hv)
    have hrest : s.pending.tail = rest := by rw [hp, List.tail_cons]
    exact .inr (by rw [← hrest]; rfl)

/-- Settles O9: a response whose first byte is not 00 is not that of an OK; and RX_PUSH answers OK whatever its slices are (O40). -/
theorem failingTransactionsWriteNothing : Obligations.FailingTransactionsWriteNothing := by
  constructor
  · intro s u a t rest r hp hstep hr hstatus
    rcases step_transaction_ok_or_only_responds hp hstep with ⟨dest, results, hok⟩ | hfailed
    · have heq : r = ⟨dest, 0x00 :: results⟩ := by simpa using hr.symm.trans hok
      exact absurd (by rw [heq]; rfl) hstatus
    · rwa [hr] at hfailed
  · intro s data
    obtain ⟨-, -, hpush⟩ := rxPushReportsEverySlice
    exact ⟨_, _, hpush data s _ _ rfl, rfl⟩

end Sys2Proof.Machine

/-! PROOFS. The reset event (spec/70_reset_and_hazards.md R230). -/

namespace Sys2Proof.Machine

/-- Settles O2: the step takes the reset and then takes it off the port, which touches no field of S and no response. -/
theorem resetEventRestoresTheResetValues : Obligations.ResetEventRestoresTheResetValues := by
  intro s rest hp
  exact ⟨s.takeReset.popInput, step_reset hp, s.takeReset_seqFlag, s.takeReset_devId, s.takeReset_crcAcc, s.takeReset_rxBuf,
    s.takeReset_rsp⟩

end Sys2Proof.Machine

/-! PROOFS. The block between transactions (spec/20_memory.md section 3, log entry 4): with nothing put to it, it waits. -/

namespace Sys2Proof.Machine

theorem State.nextInput_eq_none {s : State} (h : s.pending = []) : s.nextInput = none := by
  rw [State.nextInput, h, List.head?_nil]

/-- A step that finds no next input is the idle step: the third case of a step, beside `step_transaction` and `step_reset`. -/
theorem step_idle {s : State} (h : s.nextInput = none) : step s = idle s := by
  simp only [step, h]

/-- Settles O3: an empty port has no next input, so the step is the idle one, which answers the state it was given. -/
theorem stepWithoutInputWaits : Obligations.StepWithoutInputWaits := by
  intro s hp
  calc step s = idle s := step_idle (State.nextInput_eq_none hp)
    _ = .next s := rfl

end Sys2Proof.Machine
